-- ==== Sys2Proof/Config.lean ====
section
/-!
DEFINITION. The fixed sizes of the record-codec block (00_scope.md rules R8 and R9).
The spec leaves no value of this block undefined, so there is no free value here.
-/

namespace Sys2Proof.Config

/-- NBITS, the number of bits of BUF (R8). -/
def nbits : Nat := 3392

/-- NBYTES, the number of bytes of the record (R8). -/
def nbytes : Nat := 424

/-- DATA_WIDTH, the width of an integer DIN and of DOUT (R9). -/
def dataWidth : Nat := 3392

/-- BOARD, the cells per board axis (R8). -/
abbrev board : Nat := 8

/-- TALENT_TIERS (R8). -/
abbrev talentTiers : Nat := 16

/-- PLAYERS (R8). -/
abbrev players : Nat := 2

/-- BENCH, the bench slots (R8). -/
abbrev bench : Nat := 8

/-- UNEQUIPPED_ROWS (R8; 93_implementation_defined.md I8 calls it a parameter with default 8,
the value that every rule of the spec uses). -/
abbrev unequippedRows : Nat := 8

theorem nbits_eq : nbits = 3392 := rfl

theorem nbytes_eq : nbytes = 424 := rfl

theorem dataWidth_eq : dataWidth = 3392 := rfl

/-- The record's bits are exactly its bytes' bits (R8). -/
theorem nbits_eq_bytes : nbits = 8 * nbytes := rfl

end Sys2Proof.Config
end

