-- ==== Sys2Proof/Word.lean ====
section
/-!
DEFINITION. The word types of the block: bytes, command words and port data (00_scope.md rule R9).
-/

namespace Sys2Proof

/-- One byte of the record. -/
abbrev Byte := BitVec 8

/-- A command word (R81: every command word is exactly 32 bits). -/
abbrev Word := BitVec 32

/-- An integer on the data ports DIN and DOUT: an unsigned integer below 2^3392 (R80). -/
abbrev Data := BitVec Config.dataWidth

end Sys2Proof
end

