-- ==== Sys2Proof/Syntax.lean ====
section
/-!
DEFINITION. The commands of the block, one constructor per row of spec/opcode_table.json
(30_encoding.md rule R90), and the names of the record's fields (10_state.md rule R23).
-/

namespace Sys2Proof

/-- The eleven fields of a BoardRecord, in record order, so FID 0 to FID 10 (R23). -/
inductive FieldId where
  | version
  | unitItems
  | boardUnitIDs
  | selectedTalents
  | unitRanks
  | benchUnitItems
  | benchedUnitIDs
  | benchUnitRanks
  | underlordIDs
  | underlordRanks
  | unequippedItems
  deriving DecidableEq, Repr

/-- A command without its data operand. OFF and LEN count bits, and I and J are indexes: the unsigned
integers of R86. WellFormed says which of them the command word can hold. -/
inductive Instr where
  /-- BB_READ off, len (R111). -/
  | bbRead (off len : Nat)
  /-- BB_WRITE off, len ; DIN (R114). -/
  | bbWrite (off len : Nat)
  /-- REC_LOAD ; DIN (R116). -/
  | recLoad
  /-- LAYOUT field (R135). -/
  | layout (fid : FieldId)
  /-- ITEM_ENC ; DIN (R152). -/
  | itemEnc
  /-- ITEM_DEC ; DIN (R154). -/
  | itemDec
  /-- RANK_ENC ; DIN (R172). -/
  | rankEnc
  /-- RANK_DEC ; DIN (R174). -/
  | rankDec
  /-- REC_DECODE (R192). -/
  | recDecode
  /-- REC_ENCODE (R198). -/
  | recEncode
  /-- REC_CLEAR (R205). -/
  | recClear
  /-- FIELD_RD field, i, j (R207). -/
  | fieldRd (fid : FieldId) (i j : Nat)
  /-- FIELD_WR field, i, j ; DIN (R209). -/
  | fieldWr (fid : FieldId) (i j : Nat)
  deriving DecidableEq, Repr

end Sys2Proof
end

