-- ==== Sys2Proof/WellFormed.lean ====
section
/-!
DEFINITION. The operands that a command word can hold: OFF and LEN in 12 bits, I and J in 4 bits
(30_encoding.md rules R82 and R83). A field id is one of the eleven names, so R93's check is in the type.
-/

namespace Sys2Proof

/-- OFF and LEN of format B are each 0..4095 (R82). -/
def rangeOperandsFit (off len : Nat) : Bool := decide (off < 4096) && decide (len < 4096)

/-- I and J of format F are each 0..15 (R83). -/
def indexOperandsFit (i j : Nat) : Bool := decide (i < 16) && decide (j < 16)

/-- The instruction has a command word. -/
def Instr.wellFormed : Instr → Bool
  | .bbRead off len => rangeOperandsFit off len
  | .bbWrite off len => rangeOperandsFit off len
  | .recLoad => true
  | .layout _ => true
  | .itemEnc => true
  | .itemDec => true
  | .rankEnc => true
  | .rankDec => true
  | .recDecode => true
  | .recEncode => true
  | .recClear => true
  | .fieldRd _ i j => indexOperandsFit i j
  | .fieldWr _ i j => indexOperandsFit i j

/-- The instruction has a command word, as a proposition. -/
abbrev WellFormed (i : Instr) : Prop := i.wellFormed = true

end Sys2Proof
end

