-- ==== Sys2Proof/Decode.lean ====
section
/-!
DEFINITION. Decoding a command word, total on every 32-bit word (30_encoding.md rules R81 to R95), and
after it the encoder that builds a command word (R96).
-/

namespace Sys2Proof

/-- Why a command word is no command. Each of the three raises ILLEGAL_COMMAND (R232). -/
inductive DecodeError where
  /-- Opcode 0x0, 0xE or 0xF (R91). -/
  | reservedOpcode
  /-- An RSV bit of the word's format is set (R92). -/
  | reservedBits
  /-- FID 11..15 in format F or L (R93). -/
  | noSuchField
  deriving DecidableEq, Repr

/-- The four command formats (R82 to R85). -/
inductive Format where
  | B
  | F
  | L
  | N
  deriving DecidableEq, Repr

/-- The thirteen opcodes that are commands (R90). -/
inductive Opcode where
  | bbRead
  | bbWrite
  | recLoad
  | layout
  | itemEnc
  | itemDec
  | rankEnc
  | rankDec
  | recDecode
  | recEncode
  | recClear
  | fieldRd
  | fieldWr
  deriving DecidableEq, Repr

/-- The opcode map (R90); 0x0, 0xE and 0xF are reserved (R91). -/
def Opcode.ofBits (op : BitVec 4) : Option Opcode :=
  match op.toNat with
  | 0x1 => some .bbRead
  | 0x2 => some .bbWrite
  | 0x3 => some .recLoad
  | 0x4 => some .layout
  | 0x5 => some .itemEnc
  | 0x6 => some .itemDec
  | 0x7 => some .rankEnc
  | 0x8 => some .rankDec
  | 0x9 => some .recDecode
  | 0xA => some .recEncode
  | 0xB => some .recClear
  | 0xC => some .fieldRd
  | 0xD => some .fieldWr
  | _ => none

/-- The format of each opcode (R90). -/
def Opcode.format : Opcode → Format
  | .bbRead => .B
  | .bbWrite => .B
  | .recLoad => .N
  | .layout => .L
  | .itemEnc => .N
  | .itemDec => .N
  | .rankEnc => .N
  | .rankDec => .N
  | .recDecode => .N
  | .recEncode => .N
  | .recClear => .N
  | .fieldRd => .F
  | .fieldWr => .F

/-- RSVMASK of each format (R90, R95). -/
def Format.rsvMask : Format → Word
  | .B => 0x0000000F
  | .F => 0x0000FFFF
  | .L => 0x00FFFFFF
  | .N => 0x0FFFFFFF

/-- The field that a FID names, if any (R23, R93). -/
def FieldId.ofBits (fid : BitVec 4) : Option FieldId :=
  match fid.toNat with
  | 0 => some .version
  | 1 => some .unitItems
  | 2 => some .boardUnitIDs
  | 3 => some .selectedTalents
  | 4 => some .unitRanks
  | 5 => some .benchUnitItems
  | 6 => some .benchedUnitIDs
  | 7 => some .benchUnitRanks
  | 8 => some .underlordIDs
  | 9 => some .underlordRanks
  | 10 => some .unequippedItems
  | _ => none

/-- The FID of a field (R23). -/
def FieldId.bits : FieldId → BitVec 4
  | .version => 0
  | .unitItems => 1
  | .boardUnitIDs => 2
  | .selectedTalents => 3
  | .unitRanks => 4
  | .benchUnitItems => 5
  | .benchedUnitIDs => 6
  | .benchUnitRanks => 7
  | .underlordIDs => 8
  | .underlordRanks => 9
  | .unequippedItems => 10

/-- OP = CMD[31:28] (R81). -/
def opField (w : Word) : BitVec 4 := w.extractLsb' 28 4

/-- OFF = CMD[27:16] (R82). -/
def offField (w : Word) : BitVec 12 := w.extractLsb' 16 12

/-- LEN = CMD[15:4] (R82). -/
def lenField (w : Word) : BitVec 12 := w.extractLsb' 4 12

/-- FID = CMD[27:24] (R83, R84). -/
def fidField (w : Word) : BitVec 4 := w.extractLsb' 24 4

/-- I = CMD[23:20] (R83). -/
def iField (w : Word) : BitVec 4 := w.extractLsb' 20 4

/-- J = CMD[19:16] (R83). -/
def jField (w : Word) : BitVec 4 := w.extractLsb' 16 4

/-- The FID check of formats F and L, and then the command with its field (R93, R95). -/
def withField (w : Word) (command : FieldId → Instr) : Except DecodeError Instr :=
  match FieldId.ofBits (fidField w) with
  | some fid => .ok (command fid)
  | none => .error .noSuchField

/-- The command of a word whose opcode is known and whose RSV bits are 0 (R95, R86: the operands are
unsigned integers). -/
def decodeOperands (op : Opcode) (w : Word) : Except DecodeError Instr :=
  match op with
  | .bbRead => .ok (.bbRead (offField w).toNat (lenField w).toNat)
  | .bbWrite => .ok (.bbWrite (offField w).toNat (lenField w).toNat)
  | .recLoad => .ok .recLoad
  | .layout => withField w .layout
  | .itemEnc => .ok .itemEnc
  | .itemDec => .ok .itemDec
  | .rankEnc => .ok .rankEnc
  | .rankDec => .ok .rankDec
  | .recDecode => .ok .recDecode
  | .recEncode => .ok .recEncode
  | .recClear => .ok .recClear
  | .fieldRd => withField w (fun fid => .fieldRd fid (iField w).toNat (jField w).toNat)
  | .fieldWr => withField w (fun fid => .fieldWr fid (iField w).toNat (jField w).toNat)

/-- The decode procedure: opcode, then RSV bits, then FID (R95). -/
def decode (w : Word) : Except DecodeError Instr :=
  match Opcode.ofBits (opField w) with
  | none => .error .reservedOpcode
  | some op =>
    if w &&& op.format.rsvMask ≠ 0 then .error .reservedBits
    else decodeOperands op w

/-- A word of format B (R82, R96). -/
def wordB (op : BitVec 4) (off len : Nat) : Word :=
  op ++ BitVec.ofNat 12 off ++ BitVec.ofNat 12 len ++ (0 : BitVec 4)

/-- A word of format F (R83, R96). -/
def wordF (op : BitVec 4) (fid : FieldId) (i j : Nat) : Word :=
  op ++ fid.bits ++ BitVec.ofNat 4 i ++ BitVec.ofNat 4 j ++ (0 : BitVec 16)

/-- A word of format L (R84, R96). -/
def wordL (op : BitVec 4) (fid : FieldId) : Word := op ++ fid.bits ++ (0 : BitVec 24)

/-- A word of format N (R85, R96). -/
def wordN (op : BitVec 4) : Word := op ++ (0 : BitVec 28)

/-- The command word of an instruction (R90, R96); of a well-formed one it holds every operand. -/
def encode : Instr → Word
  | .bbRead off len => wordB 0x1 off len
  | .bbWrite off len => wordB 0x2 off len
  | .recLoad => wordN 0x3
  | .layout fid => wordL 0x4 fid
  | .itemEnc => wordN 0x5
  | .itemDec => wordN 0x6
  | .rankEnc => wordN 0x7
  | .rankDec => wordN 0x8
  | .recDecode => wordN 0x9
  | .recEncode => wordN 0xA
  | .recClear => wordN 0xB
  | .fieldRd fid i j => wordF 0xC fid i j
  | .fieldWr fid i j => wordF 0xD fid i j

/-- The instruction the decoder reads from the low `nbits` bits of `w`, numbered as
spec/opcode_table.json numbers them: a command is one 32-bit word (R81), so bit n is CMD[n]. -/
def decodeTableWord (nbits w : Nat) : Option Instr :=
  if nbits ≤ 32 then (decode (BitVec.ofNat 32 (w % 2 ^ nbits))).toOption else none

end Sys2Proof
end

