-- ==== Sys2Proof/Machine/State.lean ====
section
/-!
DEFINITION. The state of the block (10_state.md rules R20 to R41) beside the host's side of the command
port (30_encoding.md rule R80, 60_exceptions.md rules R251 and R253), and the state after reset.
-/

namespace Sys2Proof.Machine

/-- The bytes of BUF that differ from 0, by byte address, in canonical form (R21).
An unlisted byte reads as 0, BUF's reset value (R41). -/
abbrev Memory := List Host.Cell

/-- The addresses rise strictly, and each is above `low` or `low` itself. -/
def Memory.risingFrom (low : Nat) : Memory → Bool
  | [] => true
  | (a, _) :: rest => decide (low ≤ a) && Memory.risingFrom (a + 1) rest

/-- The canonical form: addresses strictly rising, each below 424, and no byte listed as 0. -/
def Memory.wf (m : Memory) : Bool :=
  Memory.risingFrom 0 m && m.all (fun c => decide (c.1 < Config.nbytes) && decide (c.2 ≠ 0))

/-- A field of I x J elements of `w` bits; element [i][j] is entry J * i + j, the first index outer
(R23, R24). The element width is in the type, so no element can be wider (R212). -/
abbrev Grid (I J w : Nat) := Vector (BitVec w) (I * J)

/-- The field register file F, one decoded BoardRecord (R23). -/
structure Fields where
  /-- FID 0 (R25). -/
  version : Grid 1 1 8
  /-- FID 1 (R26). -/
  unitItems : Grid Config.board Config.board 16
  /-- FID 2 (R27). -/
  boardUnitIDs : Grid Config.board Config.board 8
  /-- FID 3 (R28). -/
  selectedTalents : Grid Config.talentTiers Config.players 8
  /-- FID 4, the decoded ranks (R29). -/
  unitRanks : Grid Config.board Config.board 8
  /-- FID 5 (R30). -/
  benchUnitItems : Grid Config.bench 1 16
  /-- FID 6 (R31). -/
  benchedUnitIDs : Grid Config.bench 1 8
  /-- FID 7, the decoded ranks (R32). -/
  benchUnitRanks : Grid Config.bench 1 8
  /-- FID 8 (R33). -/
  underlordIDs : Grid Config.players 1 8
  /-- FID 9 (R34). -/
  underlordRanks : Grid Config.players 1 8
  /-- FID 10 (R35). -/
  unequippedItems : Grid Config.unequippedRows 2 16
  deriving DecidableEq, Repr

/-- Every element of F at its default, 0 (R41, R205). -/
def Fields.zero : Fields where
  version := Vector.replicate _ 0
  unitItems := Vector.replicate _ 0
  boardUnitIDs := Vector.replicate _ 0
  selectedTalents := Vector.replicate _ 0
  unitRanks := Vector.replicate _ 0
  benchUnitItems := Vector.replicate _ 0
  benchedUnitIDs := Vector.replicate _ 0
  benchUnitRanks := Vector.replicate _ 0
  underlordIDs := Vector.replicate _ 0
  underlordRanks := Vector.replicate _ 0
  unequippedItems := Vector.replicate _ 0

/-- The fault kinds of R231. The block raises the first five; the last three are the host's, for the
envelope (R238). -/
inductive FaultKind where
  | illegalCommand
  | indexOutOfRange
  | bitRangeOutOfBounds
  | valueTooWide
  | unexpectedRecordLength
  | unsupportedVersion
  | base64DecodeError
  | decompressionError
  deriving DecidableEq, Repr

/-- The data operand of a command: an integer below 2^3392, or a byte sequence of any length (R80). -/
inductive Din where
  | int (v : Data)
  | bytes (d : List Byte)
  deriving DecidableEq, Repr

/-- STATUS of a response (R80). -/
inductive Status where
  | ok
  | fault (kind : FaultKind)
  deriving DecidableEq, Repr

/-- The response to one command (R80). -/
structure Response where
  status : Status
  dout : Data
  deriving DecidableEq, Repr

/-- What the host can do to the block: present a command (R3), or assert the reset input (R260). -/
inductive HostInput where
  | command (cmd : Word) (din : Din)
  | reset
  deriving DecidableEq, Repr

/-- The machine. The first four fields are the block's whole state (R20). The last four are the host's side
of the command port, the model's own: DESIGN CHOICE, notes/assumptions/1.md and 2.md. -/
structure State where
  /-- BUF, the bit buffer (R21). -/
  buf : Memory
  /-- F, the field register file (R23). -/
  f : Fields
  /-- FAULT_KIND (R37). -/
  faultKind : BitVec 4
  /-- FAULT_CMD (R38). -/
  faultCmd : Word
  /-- CMD as it stands on the port for the command being performed (R80). -/
  cmd : Word
  /-- DIN as it stands on the port for the command being performed (R80). -/
  din : Din
  /-- What the host does next, first to last (R62, R251). -/
  inputs : List HostInput
  /-- The responses since reset, the newest first (R253). -/
  responses : List Response
  deriving DecidableEq, Repr

/-- The block stops with no fault: a faulting command ends with STATUS = FAULT, and the next command is
performed normally (R230), so that outcome is a next state. There is no reason to stop: safe. -/
inductive Fault
  deriving DecidableEq, Repr

/-- Why a step has no meaning. -/
inductive Refusal where
  /-- Raised by an arm of exec whose instruction has no meaning yet; no arm does so now. Safe: a run ends. -/
  | notModelled (mnemonic : String)
  deriving DecidableEq, Repr

/-- The state after reset (R41, R260): BUF, F, FAULT_KIND and FAULT_CMD are 0. The port carries no command and
no response yet (notes/assumptions/1.md and 2.md). -/
def State.reset : State where
  buf := []
  f := Fields.zero
  faultKind := 0
  faultCmd := 0
  cmd := 0
  din := .int 0
  inputs := []
  responses := []

end Sys2Proof.Machine
end

