-- ==== Sys2Proof/Machine/Flags.lean ====
section
/-!
DEFINITION. The block has no flags or condition codes (10_state.md rule R39). Its only status is FAULT_KIND and
FAULT_CMD, so this file holds what decides them: the fault codes of 60_exceptions.md rule R231, the field dims and
widths of 10_state.md rule R23, and the conditions under which each fault is raised (R233 to R237).
-/

namespace Sys2Proof

/-- The dims I x J of a field (R23, R211). -/
def FieldId.dims : FieldId → Nat × Nat
  | .version => (1, 1)
  | .unitItems => (Config.board, Config.board)
  | .boardUnitIDs => (Config.board, Config.board)
  | .selectedTalents => (Config.talentTiers, Config.players)
  | .unitRanks => (Config.board, Config.board)
  | .benchUnitItems => (Config.bench, 1)
  | .benchedUnitIDs => (Config.bench, 1)
  | .benchUnitRanks => (Config.bench, 1)
  | .underlordIDs => (Config.players, 1)
  | .underlordRanks => (Config.players, 1)
  | .unequippedItems => (Config.unequippedRows, 2)

/-- The element width of a field in bits (R23). -/
def FieldId.width : FieldId → Nat
  | .version => 8
  | .unitItems => 16
  | .boardUnitIDs => 8
  | .selectedTalents => 8
  | .unitRanks => 8
  | .benchUnitItems => 16
  | .benchedUnitIDs => 8
  | .benchUnitRanks => 8
  | .underlordIDs => 8
  | .underlordRanks => 8
  | .unequippedItems => 16

namespace Machine

/-- The code of a fault kind, as held in FAULT_KIND (R231). -/
def FaultKind.code : FaultKind → BitVec 4
  | .illegalCommand => 1
  | .indexOutOfRange => 2
  | .bitRangeOutOfBounds => 3
  | .valueTooWide => 4
  | .unexpectedRecordLength => 5
  | .unsupportedVersion => 6
  | .base64DecodeError => 7
  | .decompressionError => 8

/-- The bit range [off, off + len) passes the end of BUF (R57, R233). -/
abbrev rangeOutOfBounds (off len : Nat) : Prop := Config.nbits < off + len

/-- A value of `n` bits cannot hold `v` (R87, R234). -/
abbrev tooWide (v : Data) (n : Nat) : Prop := 2 ^ n ≤ v.toNat

/-- An index passes the dims of its field (R211, R235). -/
abbrev indexOutOfRange (fid : FieldId) (i j : Nat) : Prop := fid.dims.1 ≤ i ∨ fid.dims.2 ≤ j

/-- A byte sequence is no record: it is not exactly 424 bytes long (R116, R237). -/
abbrev wrongRecordLength (d : List Byte) : Prop := d.length ≠ Config.nbytes

end Machine

end Sys2Proof
end

