-- ==== Sys2Proof/Machine/Operands.lean ====
section
/-!
DEFINITION. The operand forms: byte sequences as big-endian integers (00_scope.md rule R12), the rank vector and its
lanes (30_encoding.md rule R89), an integer on the data port (R80), and the kind check of DIN (R87).
-/

namespace Sys2Proof.Machine

/-- BE(b): the first byte is the most significant (R12). -/
def be (b : List Byte) : Nat := b.foldl (fun v x => v * 256 + x.toNat) 0

/-- bytes_n(v): the `n` bytes whose BE value is `v`, for `v` below 2^(8n) (R12). -/
def bytesOf : Nat → Nat → List Byte
  | 0, _ => []
  | n + 1, v => bytesOf n (v / 256) ++ [BitVec.ofNat 8 v]

/-- An integer on the data port (R80). -/
def port (v : Nat) : Data := BitVec.ofNat Config.dataWidth v

/-- Lane j of a rank vector: V[8j+7:8j] (R89). -/
def lane (v : Data) (j : Nat) : Byte := v.extractLsb' (8 * j) 8

/-- The rank vector of 8 ranks: the sum of r[j] * 2^(8j) (R89, R174). -/
def ofLanes (r : Nat → Byte) : Nat :=
  (List.range 8).foldl (fun v j => v + (r j).toNat * 2 ^ (8 * j)) 0

/-- The index pairs of a grid in the order of the nested loops "for a, b": the first index outer (R192, R198). -/
def pairs (I J : Nat) : List (Nat × Nat) :=
  (List.range I).flatMap fun a => (List.range J).map fun b => (a, b)

end Sys2Proof.Machine
end

