-- ==== Sys2Proof/Machine/Ops.lean ====
section
/-!
DEFINITION. The named operations over the state: bytes and bit ranges of BUF (40_bitbuffer.md rules R110 and R113), elements
of F (10_state.md rule R24), a command's completion, fault entry (60_exceptions.md rule R236), and the port.
-/

namespace Sys2Proof.Machine

/-- Byte(a): the byte of BUF at byte address `a` (R13). A byte that is not listed is 0 (R41). -/
def Memory.read : Memory → Nat → Byte
  | [], _ => 0
  | (k, x) :: rest, a => if k = a then x else Memory.read rest a

/-- MemWrite(a, 1, b): one byte stored at byte address `a` (R13), in canonical form. -/
def Memory.write : Memory → Nat → Byte → Memory
  | [], a, b => if b = 0 then [] else [(a, b)]
  | (k, x) :: rest, a, b =>
    if a < k then (if b = 0 then (k, x) :: rest else (a, b) :: (k, x) :: rest)
    else if a = k then (if b = 0 then rest else (a, b) :: rest)
    else (k, x) :: Memory.write rest a b

/-- PutBytes(a, bytes): consecutive bytes from byte address `a` (R191). -/
def Memory.putBytes : Memory → Nat → List Byte → Memory
  | m, _, [] => m
  | m, a, b :: rest => Memory.putBytes (m.write a b) (a + 1) rest

/-- Bytes `a` to `a + n - 1` in record order: Slot(a) for n = 3, Pack(a) for n = 4 (R191). -/
def Memory.bytes (m : Memory) (a n : Nat) : List Byte := (List.range n).map fun k => m.read (a + k)

/-- The place in its byte of buffer position `p`: position 8n is the most significant bit of byte n (R11, R50). -/
def bitInByte (p : Nat) : Nat := 7 - p % 8

/-- BUF<p>: the bit at position `p` (R11). -/
def Memory.bit (m : Memory) (p : Nat) : Bool := (m.read (p / 8)).getLsbD (bitInByte p)

/-- A byte with its bit of weight 2^k replaced. -/
def withBit (x : Byte) (k : Nat) (b : Bool) : Byte :=
  if b then x ||| 1#8 <<< k else x &&& ~~~(1#8 <<< k)

/-- BUF<p> <- b (R113). -/
def Memory.setBit (m : Memory) (p : Nat) (b : Bool) : Memory :=
  m.write (p / 8) (withBit (m.read (p / 8)) (bitInByte p) b)

/-- The value BBRead(off, len) returns for an in-bounds range: v <- 2*v + BUF<off+i> for i from 0 (R110). -/
def Memory.readBits (m : Memory) (off : Nat) : Nat → Nat
  | 0 => 0
  | n + 1 => 2 * m.readBits off n + (m.bit (off + n)).toNat

/-- BBWrite(off, len, v) for an in-bounds range and a value below 2^len: BUF<off+i> <- v[len-1-i] for i from 0, so
the last position takes v[0] and the positions before it the bits of v / 2 (R113). -/
def Memory.writeBits (m : Memory) (off : Nat) : Nat → Nat → Memory
  | 0, _ => m
  | n + 1, v => (m.writeBits off n (v / 2)).setBit (off + n) (v.testBit 0)

/-- A grid from its elements. -/
def Grid.tabulate {I J w : Nat} (e : Nat → Nat → BitVec w) : Grid I J w :=
  Vector.ofFn fun k => e (k.val / J) (k.val % J)

/-- F.name[i][j] (R24). The index checks of R211 come before every use, so the default is never read. -/
def Grid.get {I J w : Nat} (g : Grid I J w) (i j : Nat) : BitVec w := g[J * i + j]?.getD 0

/-- F.name[i][j] <- v (R24). -/
def Grid.put {I J w : Nat} (g : Grid I J w) (i j : Nat) (v : BitVec w) : Grid I J w :=
  g.setIfInBounds (J * i + j) v

/-- F[FID][I][J] as an unsigned integer (R24, R207). -/
def Fields.read (f : Fields) (fid : FieldId) (i j : Nat) : Nat :=
  match fid with
  | .version => (f.version.get i j).toNat
  | .unitItems => (f.unitItems.get i j).toNat
  | .boardUnitIDs => (f.boardUnitIDs.get i j).toNat
  | .selectedTalents => (f.selectedTalents.get i j).toNat
  | .unitRanks => (f.unitRanks.get i j).toNat
  | .benchUnitItems => (f.benchUnitItems.get i j).toNat
  | .benchedUnitIDs => (f.benchedUnitIDs.get i j).toNat
  | .benchUnitRanks => (f.benchUnitRanks.get i j).toNat
  | .underlordIDs => (f.underlordIDs.get i j).toNat
  | .underlordRanks => (f.underlordRanks.get i j).toNat
  | .unequippedItems => (f.unequippedItems.get i j).toNat

/-- F[FID][I][J] <- v, for `v` below 2^width (R209). -/
def Fields.write (f : Fields) (fid : FieldId) (i j v : Nat) : Fields :=
  match fid with
  | .version => { f with version := f.version.put i j (BitVec.ofNat 8 v) }
  | .unitItems => { f with unitItems := f.unitItems.put i j (BitVec.ofNat 16 v) }
  | .boardUnitIDs => { f with boardUnitIDs := f.boardUnitIDs.put i j (BitVec.ofNat 8 v) }
  | .selectedTalents => { f with selectedTalents := f.selectedTalents.put i j (BitVec.ofNat 8 v) }
  | .unitRanks => { f with unitRanks := f.unitRanks.put i j (BitVec.ofNat 8 v) }
  | .benchUnitItems => { f with benchUnitItems := f.benchUnitItems.put i j (BitVec.ofNat 16 v) }
  | .benchedUnitIDs => { f with benchedUnitIDs := f.benchedUnitIDs.put i j (BitVec.ofNat 8 v) }
  | .benchUnitRanks => { f with benchUnitRanks := f.benchUnitRanks.put i j (BitVec.ofNat 8 v) }
  | .underlordIDs => { f with underlordIDs := f.underlordIDs.put i j (BitVec.ofNat 8 v) }
  | .underlordRanks => { f with underlordRanks := f.underlordRanks.put i j (BitVec.ofNat 8 v) }
  | .unequippedItems => { f with unequippedItems := f.unequippedItems.put i j (BitVec.ofNat 16 v) }

/-- The outcome of a command: always a next state, since no command stops the block (R230). -/
abbrev Result := Host.Outcome State Fault Refusal

/-- The command ends with STATUS = OK and DOUT = v (R80); FAULT_KIND and FAULT_CMD stay (R37, R240). -/
def State.complete (s : State) (v : Nat) : State :=
  { s with responses := ⟨.ok, port v⟩ :: s.responses }

/-- Fault entry (R236): FAULT_KIND <- code(K); FAULT_CMD <- CMD; STATUS <- FAULT(K); DOUT <- 0; nothing else changes.
There is no return from a fault: the next command runs normally from here (R240, R241). -/
def State.enterFault (s : State) (kind : FaultKind) : State :=
  { s with faultKind := kind.code, faultCmd := s.cmd, responses := ⟨.fault kind, 0⟩ :: s.responses }

/-- The DIN kind check of every command but REC_LOAD: a byte sequence raises ILLEGAL_COMMAND (R87, R232). -/
def State.withInteger (s : State) (command : Data → State) : Result :=
  match s.din with
  | .int v => .next (command v)
  | .bytes _ => .next (s.enterFault .illegalCommand)

/-- The DIN kind check of REC_LOAD: an integer raises ILLEGAL_COMMAND (R87, R232). -/
def State.withBytes (s : State) (command : List Byte → State) : Result :=
  match s.din with
  | .bytes d => .next (command d)
  | .int _ => .next (s.enterFault .illegalCommand)

/-- The host's next command stands on the port, and `rest` is what the host does after it (R3, R80). -/
def State.present (s : State) (cmd : Word) (din : Din) (rest : List HostInput) : State :=
  { s with cmd := cmd, din := din, inputs := rest }

/-- The host asserts the reset input: every piece of state takes its reset value (R260), and a new run begins
(R253). -/
def State.assertReset (rest : List HostInput) : State := { State.reset with inputs := rest }

/-- The data operand with which withFetchWord presents an instruction: one of the right kind that raises no
VALUE_TOO_WIDE and no UNEXPECTED_RECORD_LENGTH (notes/assumptions/3.md). -/
def plainDin (i : Option Instr) : Din :=
  match i with
  | some .recLoad => .bytes (List.replicate Config.nbytes 0)
  | _ => .int (BitVec.zero _)

end Sys2Proof.Machine
end

