-- ==== Sys2Proof/Machine/BitBuffer.lean ====
section
/-!
DEFINITION. BB_READ, BB_WRITE and REC_LOAD (40_bitbuffer.md).
-/

namespace Sys2Proof.Machine

/-- BB_READ (R111): DOUT <- BBRead(OFF, LEN). -/
def execBbRead (off len : Nat) (s : State) : Result :=
  s.withInteger fun _ =>
    if rangeOutOfBounds off len then s.enterFault .bitRangeOutOfBounds
    else s.complete (s.buf.readBits off len)

/-- BB_WRITE (R114): BBWrite(OFF, LEN, DIN); the bound check comes before the width check (R239). -/
def execBbWrite (off len : Nat) (s : State) : Result :=
  s.withInteger fun v =>
    if rangeOutOfBounds off len then s.enterFault .bitRangeOutOfBounds
    else if tooWide v len then s.enterFault .valueTooWide
    else State.complete { s with buf := s.buf.writeBits off len v.toNat } 0

/-- REC_LOAD (R116): byte k of DIN goes to record byte k (R60). -/
def execRecLoad (s : State) : Result :=
  s.withBytes fun d =>
    if wrongRecordLength d then s.enterFault .unexpectedRecordLength
    else State.complete { s with buf := s.buf.putBytes 0 d } 0

end Sys2Proof.Machine
end

