-- ==== Sys2Proof/Machine/ItemSlot.lean ====
section
/-!
DEFINITION. The item-slot codec (42_item_slot.md): its two functions, ITEM_ENC and ITEM_DEC.
-/

namespace Sys2Proof.Machine

/-- ItemEncode(id): the slot bytes [low, high, 0x00] (R151). -/
def itemEncode (id : BitVec 16) : List Byte := [id.extractLsb' 0 8, id.extractLsb' 8 8, 0x00]

/-- ItemDecode([s0, s1, s2]) = s1 * 256 + s0; s2 has no effect (R153, R155). -/
def itemDecode (slot : List Byte) : BitVec 16 := slot.getD 1 0 ++ slot.getD 0 0

/-- ITEM_ENC (R152): DOUT <- BE(ItemEncode(DIN)). -/
def execItemEnc (s : State) : Result :=
  s.withInteger fun v =>
    if tooWide v 16 then s.enterFault .valueTooWide
    else s.complete (be (itemEncode (v.setWidth 16)))

/-- ITEM_DEC (R154): DOUT <- ItemDecode of the 3 bytes of DIN in record order. -/
def execItemDec (s : State) : Result :=
  s.withInteger fun v =>
    if tooWide v 24 then s.enterFault .valueTooWide
    else s.complete (itemDecode (bytesOf 3 v.toNat)).toNat

end Sys2Proof.Machine
end

