-- ==== Sys2Proof/Machine/RankPacker.lean ====
section
/-!
DEFINITION. The rank packer (43_rank_packer.md): its tables and functions, RANK_ENC and RANK_DEC.
-/

namespace Sys2Proof.Machine

/-- MASK[k], the encode test masks (R170). -/
def rankMask (k : Nat) : Byte := ([1, 2, 4, 8] : List Byte).getD k 0

/-- SHIFT[k], the decode shift amounts, which are not those of the masks (R170, R176). -/
def rankShift (k : Nat) : Nat := ([0, 1, 2, 4] : List Nat).getD k 0

/-- The accumulator of RankEncode: bit 4j + k is set when r[j] & MASK[k] is not 0 (R171, R175). -/
def rankAccumulator (r : Nat → Byte) : Word :=
  (pairs 8 4).foldl
    (fun acc p => if r p.1 &&& rankMask p.2 ≠ 0 then acc ||| 1#32 <<< (4 * p.1 + p.2) else acc) 0

/-- RankEncode(r[0..7]): the accumulator's 4 bytes, reversed (R171). -/
def rankEncode (r : Nat → Byte) : List Byte := (bytesOf 4 (rankAccumulator r).toNat).reverse

/-- Rank `j` of an accumulator: bit 4j + k ORs 1 << SHIFT[k] into it (R173). -/
def rankOfAccumulator (acc : Word) (j : Nat) : Byte :=
  (List.range 4).foldl (fun r k => if acc.getLsbD (4 * j + k) then r ||| 1#8 <<< rankShift k else r) 0

/-- RankDecode(q[0..3])[j]: the bytes reversed, as one integer (R173). -/
def rankDecode (q : List Byte) (j : Nat) : Byte := rankOfAccumulator (BitVec.ofNat 32 (be q.reverse)) j

/-- RANK_ENC (R172): DOUT <- BE(RankEncode(the lanes of DIN)). -/
def execRankEnc (s : State) : Result :=
  s.withInteger fun v =>
    if tooWide v 64 then s.enterFault .valueTooWide
    else s.complete (be (rankEncode (lane v)))

/-- RANK_DEC (R174): DOUT <- the lanes of RankDecode(bytes_4(DIN)). -/
def execRankDec (s : State) : Result :=
  s.withInteger fun v =>
    if tooWide v 32 then s.enterFault .valueTooWide
    else s.complete (ofLanes (rankDecode (bytesOf 4 v.toNat)))

end Sys2Proof.Machine
end

