-- ==== Sys2Proof/Machine/RecordLayout.lean ====
section
/-!
DEFINITION. The record layout (41_record_layout.md): the table, the element addresses, the reserved bytes, and LAYOUT.
-/

namespace Sys2Proof

/-- The layout table: a field's byte offset and byte length (R131). For FID 4 and FID 7 it is the packed field, and
for FID 10 the whole 60-byte allocation. -/
def FieldId.layout : FieldId → Nat × Nat
  | .version => (0, 1)
  | .unitItems => (1, 192)
  | .boardUnitIDs => (193, 64)
  | .selectedTalents => (257, 32)
  | .unitRanks => (292, 32)
  | .benchUnitItems => (324, 24)
  | .benchedUnitIDs => (348, 8)
  | .benchUnitRanks => (356, 4)
  | .underlordIDs => (360, 2)
  | .underlordRanks => (362, 2)
  | .unequippedItems => (364, 60)

namespace Machine

/-- The byte address of version (R132). -/
def versionAddr : Nat := 0

/-- The slot address of unitItems[a][b] (R132). -/
def unitItemAddr (a b : Nat) : Nat := 1 + 3 * (8 * a + b)

/-- The byte address of boardUnitIDs[a][b] (R132). -/
def boardUnitAddr (a b : Nat) : Nat := 193 + 8 * a + b

/-- The byte address of selectedTalents[t][p] (R132). -/
def talentAddr (t p : Nat) : Nat := 257 + 2 * t + p

/-- The address of the packed field that holds unitRanks[0..7][b] (R132). -/
def packedUnitRankAddr (b : Nat) : Nat := 292 + 4 * b

/-- The slot address of benchUnitItems[i] (R132). -/
def benchItemAddr (i : Nat) : Nat := 324 + 3 * i

/-- The byte address of benchedUnitIDs[i] (R132). -/
def benchUnitAddr (i : Nat) : Nat := 348 + i

/-- The address of the packed field that holds benchUnitRanks[0..7] (R132). -/
def packedBenchRankAddr : Nat := 356

/-- The byte address of underlordIDs[p] (R132). -/
def underlordIdAddr (p : Nat) : Nat := 360 + p

/-- The byte address of underlordRanks[p] (R132). -/
def underlordRankAddr (p : Nat) : Nat := 362 + p

/-- The slot address of unequippedItems[i][j] (R132). -/
def unequippedItemAddr (i j : Nat) : Nat := 364 + 3 * (2 * i + j)

/-- Every element of R132 in record order: its field, its byte address and its number of bytes. A packed rank field is one
entry for its 8 ranks. -/
def elementRanges : List (FieldId × Nat × Nat) :=
  [(FieldId.version, versionAddr, 1)] ++ (pairs 8 8).map (fun p => (FieldId.unitItems, unitItemAddr p.1 p.2, 3)) ++
  (pairs 8 8).map (fun p => (FieldId.boardUnitIDs, boardUnitAddr p.1 p.2, 1)) ++
  (pairs 16 2).map (fun p => (FieldId.selectedTalents, talentAddr p.1 p.2, 1)) ++
  (List.range 8).map (fun b => (FieldId.unitRanks, packedUnitRankAddr b, 4)) ++
  (List.range 8).map (fun i => (FieldId.benchUnitItems, benchItemAddr i, 3)) ++
  (List.range 8).map (fun i => (FieldId.benchedUnitIDs, benchUnitAddr i, 1)) ++
  [(FieldId.benchUnitRanks, packedBenchRankAddr, 4)] ++
  (List.range 2).map (fun p => (FieldId.underlordIDs, underlordIdAddr p, 1)) ++
  (List.range 2).map (fun p => (FieldId.underlordRanks, underlordRankAddr p, 1)) ++
  (pairs 8 2).map (fun p => (FieldId.unequippedItems, unequippedItemAddr p.1 p.2, 3))

/-- Byte `a` of the record is a reserved byte (R133): byte 2 of an item slot, 289..291, or 412..423. -/
def reservedByte (a : Nat) : Bool :=
  decide (1 ≤ a ∧ a < 193 ∧ (a - 1) % 3 = 2) || decide (289 ≤ a ∧ a ≤ 291) ||
    decide (324 ≤ a ∧ a < 348 ∧ (a - 324) % 3 = 2) || decide (364 ≤ a ∧ a < 412 ∧ (a - 364) % 3 = 2) ||
    decide (412 ≤ a ∧ a ≤ 423)

/-- LAYOUT (R135): DOUT <- offset * 2^16 + length. -/
def execLayout (fid : FieldId) (s : State) : Result :=
  s.withInteger fun _ => s.complete (fid.layout.1 * 2 ^ 16 + fid.layout.2)

end Machine

end Sys2Proof
end

