-- ==== Sys2Proof/Machine/BoardRecord.lean ====
section
/-!
DEFINITION. The board record (44_board_record.md): REC_DECODE, REC_ENCODE, REC_CLEAR, FIELD_RD and FIELD_WR.
-/

namespace Sys2Proof.Machine

/-- The item id in the slot at byte address `a`: ItemDecode(Slot(a)) (R191, R192). -/
def Memory.item (m : Memory) (a : Nat) : BitVec 16 := itemDecode (m.bytes a 3)

/-- Rank `j` of the packed field at byte address `a`: RankDecode(Pack(a))[j] (R191, R192). -/
def Memory.rank (m : Memory) (a j : Nat) : Byte := rankDecode (m.bytes a 4) j

/-- The field registers that BUF decodes to (R192). -/
def decodeRecord (m : Memory) : Fields where
  version := Grid.tabulate fun _ _ => m.read versionAddr
  unitItems := Grid.tabulate fun a b => m.item (unitItemAddr a b)
  boardUnitIDs := Grid.tabulate fun a b => m.read (boardUnitAddr a b)
  selectedTalents := Grid.tabulate fun t p => m.read (talentAddr t p)
  unitRanks := Grid.tabulate fun a b => m.rank (packedUnitRankAddr b) a
  benchUnitItems := Grid.tabulate fun i _ => m.item (benchItemAddr i)
  benchedUnitIDs := Grid.tabulate fun i _ => m.read (benchUnitAddr i)
  benchUnitRanks := Grid.tabulate fun i _ => m.rank packedBenchRankAddr i
  underlordIDs := Grid.tabulate fun p _ => m.read (underlordIdAddr p)
  underlordRanks := Grid.tabulate fun p _ => m.read (underlordRankAddr p)
  unequippedItems := Grid.tabulate fun i j => m.item (unequippedItemAddr i j)

/-- The PutBytes of REC_ENCODE, address and bytes, in the spec's order (R190, R198). -/
def recordPuts (f : Fields) : List (Nat × List Byte) :=
  [(versionAddr, [f.version.get 0 0])] ++
  (pairs 8 8).map (fun p => (unitItemAddr p.1 p.2, itemEncode (f.unitItems.get p.1 p.2))) ++
  (pairs 8 8).map (fun p => (boardUnitAddr p.1 p.2, [f.boardUnitIDs.get p.1 p.2])) ++
  (pairs 16 2).map (fun p => (talentAddr p.1 p.2, [f.selectedTalents.get p.1 p.2])) ++
  (List.range 8).map (fun b => (packedUnitRankAddr b, rankEncode (fun a => f.unitRanks.get a b))) ++
  (List.range 8).map (fun i => (benchItemAddr i, itemEncode (f.benchUnitItems.get i 0))) ++
  (List.range 8).map (fun i => (benchUnitAddr i, [f.benchedUnitIDs.get i 0])) ++
  [(packedBenchRankAddr, rankEncode (fun i => f.benchUnitRanks.get i 0))] ++
  (List.range 2).map (fun p => (underlordIdAddr p, [f.underlordIDs.get p 0])) ++
  (List.range 2).map (fun p => (underlordRankAddr p, [f.underlordRanks.get p 0])) ++
  (pairs 8 2).map (fun p => (unequippedItemAddr p.1 p.2, itemEncode (f.unequippedItems.get p.1 p.2)))

/-- BUF as REC_ENCODE leaves it: all zero, and then every PutBytes (R198). -/
def encodeRecord (f : Fields) : Memory :=
  (recordPuts f).foldl (fun m p => m.putBytes p.1 p.2) []

/-- REC_DECODE (R192): every element of F is overwritten from BUF. -/
def execRecDecode (s : State) : Result :=
  s.withInteger fun _ => State.complete { s with f := decodeRecord s.buf } 0

/-- REC_ENCODE (R198): every bit of BUF is overwritten from F. -/
def execRecEncode (s : State) : Result :=
  s.withInteger fun _ => State.complete { s with buf := encodeRecord s.f } 0

/-- REC_CLEAR (R205): every element of F takes its default. -/
def execRecClear (s : State) : Result :=
  s.withInteger fun _ => State.complete { s with f := Fields.zero } 0

/-- FIELD_RD (R207): DOUT <- F[FID][I][J]. -/
def execFieldRd (fid : FieldId) (i j : Nat) (s : State) : Result :=
  s.withInteger fun _ =>
    if indexOutOfRange fid i j then s.enterFault .indexOutOfRange
    else s.complete (s.f.read fid i j)

/-- FIELD_WR (R209): F[FID][I][J] <- DIN; the index check comes before the width check (R239). -/
def execFieldWr (fid : FieldId) (i j : Nat) (s : State) : Result :=
  s.withInteger fun v =>
    if indexOutOfRange fid i j then s.enterFault .indexOutOfRange
    else if tooWide v fid.width then s.enterFault .valueTooWide
    else State.complete { s with f := s.f.write fid i j v.toNat } 0

end Sys2Proof.Machine
end

