-- ==== Sys2Proof/Machine/Dispatch.lean ====
section
/-!
DEFINITION. The meaning of each command, one arm per row of spec/opcode_table.json (30_encoding.md rule R90).
-/

namespace Sys2Proof.Machine

def exec (i : Instr) (s : State) : Host.Outcome State Fault Refusal :=
  match i with
  | .bbRead off len => Sys2Proof.Machine.execBbRead off len s
  | .bbWrite off len => Sys2Proof.Machine.execBbWrite off len s
  | .recLoad => Sys2Proof.Machine.execRecLoad s
  | .layout fid => Sys2Proof.Machine.execLayout fid s
  | .itemEnc => Sys2Proof.Machine.execItemEnc s
  | .itemDec => Sys2Proof.Machine.execItemDec s
  | .rankEnc => Sys2Proof.Machine.execRankEnc s
  | .rankDec => Sys2Proof.Machine.execRankDec s
  | .recDecode => Sys2Proof.Machine.execRecDecode s
  | .recEncode => Sys2Proof.Machine.execRecEncode s
  | .recClear => Sys2Proof.Machine.execRecClear s
  | .fieldRd fid a b => Sys2Proof.Machine.execFieldRd fid a b s
  | .fieldWr fid a b => Sys2Proof.Machine.execFieldWr fid a b s

end Sys2Proof.Machine
end

