-- ==== Sys2Proof/Machine/Step.lean ====
section
/-!
DEFINITION. One step: the block performs the host's next command (10_state.md rule R20, 70_reset_and_hazards.md rule
R268), takes the reset input (R260), or waits (R252).
-/

namespace Sys2Proof.Machine

/-- The command that stands on the port is decoded and performed; a word that is no command raises
ILLEGAL_COMMAND (R95, R232). -/
def perform (s : State) : Host.Outcome State Fault Refusal :=
  match decode s.cmd with
  | .ok i => exec i s
  | .error _ => .next (s.enterFault .illegalCommand)

/-- One step. With nothing from the host, the block holds its state unchanged (R252, R261). -/
def step (s : State) : Host.Outcome State Fault Refusal :=
  match s.inputs with
  | [] => .next s
  | .reset :: rest => .next (State.assertReset rest)
  | .command cmd din :: rest => perform (s.present cmd din rest)

/-- The host presents the instruction of a table word next, with a data operand of the right kind. The block loads no
program: commands come from the host's port alone (R3, R65; notes/assumptions/3.md). -/
def State.withFetchWord (s : State) (nbits w : Nat) : State :=
  { s with inputs := .command (BitVec.ofNat 32 (w % 2 ^ nbits)) (plainDin (decodeTableWord nbits w)) :: s.inputs }

end Sys2Proof.Machine
end

