-- ==== Sys2Proof/Machine/Pseudo.lean ====
section
/-!
DEFINITION. The pseudo-instructions, each exactly one command (30_encoding.md rule R100).
-/

namespace Sys2Proof.Machine

/-- BYTE_RD n: read record byte n, 0 <= n <= 423. DESIGN CHOICE, notes/assumptions/12.md: above 423, which R100 does not
treat, the expansion is the same, a read past the end. -/
def byteRd (n : Nat) : Instr := .bbRead (8 * n) 8

/-- BYTE_WR n ; DIN=v: write record byte n. -/
def byteWr (n : Nat) : Instr := .bbWrite (8 * n) 8

/-- MEM_RD n, k: read k bytes from byte n, big-endian. -/
def memRd (n k : Nat) : Instr := .bbRead (8 * n) (8 * k)

/-- REC_STORE: read the whole record. -/
def recStore : Instr := .bbRead 0 3392

/-- SLOT_RD n: read the 3-byte slot at byte n as S. -/
def slotRd (n : Nat) : Instr := .bbRead (8 * n) 24

/-- RANKS_RD n: read the 4-byte packed rank field at byte n as P. -/
def ranksRd (n : Nat) : Instr := .bbRead (8 * n) 32

end Sys2Proof.Machine
end

