-- ==== Sys2Proof/Machine/Assembly.lean ====
section
/-!
DEFINITION. The assembly syntax of the commands, one command a line (00_scope.md rule R14, 30_encoding.md rules R99 and R100), as a
function from a line of text to what the host presents on the port. No effect on the block: notes/assumptions/5.md.
-/

namespace Sys2Proof.Machine

/-- A line of assembly text, or a piece of one. -/
abbrev Text := List Char

/-- A space or a tab. -/
def isGap (c : Char) : Bool := c == ' ' || c == '\t'

/-- The text without the gaps around it. -/
def trim (t : Text) : Text := ((t.dropWhile isGap).reverse.dropWhile isGap).reverse

/-- The text before a comment, which begins with # (R99). -/
def beforeComment (t : Text) : Text := t.takeWhile (· != '#')

/-- The pieces of a text between the separators `c`. -/
def pieces (c : Char) : Text → List Text
  | [] => [[]]
  | x :: rest =>
    match pieces c rest with
    | [] => [[x]]
    | p :: ps => if x == c then [] :: p :: ps else (x :: p) :: ps

/-- The digits of R99's numbers, each at the place that is its value: hexadecimal takes all sixteen, decimal the first ten. -/
def numerals : Text := "0123456789abcdef".toList

/-- The value of a numeral in either case; of any other character 16, which no base reaches. -/
def numeral (c : Char) : Nat := numerals.idxOf c.toLower

/-- A number written in the first `base` numerals, the first digit the most significant. -/
def positional (base : Nat) (t : Text) : Option Nat :=
  if t ≠ [] ∧ t.all (fun c => decide (numeral c < base)) = true then some (t.foldl (fun v c => base * v + numeral c) 0) else none

/-- A number in decimal or 0x hexadecimal (R99). -/
def number : Text → Option Nat
  | '0' :: 'x' :: t => positional 16 t
  | t => positional 10 t

/-- A field by its name of 10_state.md rule R23 or by its FID number (R99). -/
def field (t : Text) : Option FieldId :=
  match String.ofList t with
  | "version" => some .version
  | "unitItems" => some .unitItems
  | "boardUnitIDs" => some .boardUnitIDs
  | "selectedTalents" => some .selectedTalents
  | "unitRanks" => some .unitRanks
  | "benchUnitItems" => some .benchUnitItems
  | "benchedUnitIDs" => some .benchedUnitIDs
  | "benchUnitRanks" => some .benchUnitRanks
  | "underlordIDs" => some .underlordIDs
  | "underlordRanks" => some .underlordRanks
  | "unequippedItems" => some .unequippedItems
  | _ =>
    match number t with
    | some n => if n < 16 then FieldId.ofBits (BitVec.ofNat 4 n) else none
    | none => none

/-- The element named by the operands of format F: j may be left out of a field with J = 1, and both i and j of version
(R99). -/
def element (args : List Text) : Option (FieldId × Nat × Nat) :=
  match args with
  | [t] => (field t).bind fun fid => if fid = .version then some (fid, 0, 0) else none
  | [t, i] => (field t).bind fun fid => if fid.dims.2 = 1 then (number i).map fun i => (fid, i, 0) else none
  | [t, i, j] => (field t).bind fun fid => (number i).bind fun i => (number j).map fun j => (fid, i, j)
  | _ => none

/-- One number. -/
def oneNumber (args : List Text) : Option Nat :=
  match args with
  | [a] => number a
  | _ => none

/-- Two numbers. -/
def twoNumbers (args : List Text) : Option (Nat × Nat) :=
  match args with
  | [a, b] => (number a).bind fun a => (number b).map fun b => (a, b)
  | _ => none

/-- The command, or the pseudo-instruction's expansion, of a mnemonic and its operands (R99, R100). DESIGN CHOICE,
notes/assumptions/12.md: BYTE_RD above byte 423, which R100 does not treat, expands as any other. -/
def command (mnemonic : Text) (args : List Text) : Option Instr :=
  match String.ofList mnemonic with
  | "BB_READ" => (twoNumbers args).map fun p => .bbRead p.1 p.2
  | "BB_WRITE" => (twoNumbers args).map fun p => .bbWrite p.1 p.2
  | "REC_LOAD" => if args = [] then some .recLoad else none
  | "LAYOUT" => match args with
    | [t] => (field t).map .layout
    | _ => none
  | "ITEM_ENC" => if args = [] then some .itemEnc else none
  | "ITEM_DEC" => if args = [] then some .itemDec else none
  | "RANK_ENC" => if args = [] then some .rankEnc else none
  | "RANK_DEC" => if args = [] then some .rankDec else none
  | "REC_DECODE" => if args = [] then some .recDecode else none
  | "REC_ENCODE" => if args = [] then some .recEncode else none
  | "REC_CLEAR" => if args = [] then some .recClear else none
  | "FIELD_RD" => (element args).map fun e => .fieldRd e.1 e.2.1 e.2.2
  | "FIELD_WR" => (element args).map fun e => .fieldWr e.1 e.2.1 e.2.2
  | "BYTE_RD" => (oneNumber args).map byteRd
  | "BYTE_WR" => (oneNumber args).map byteWr
  | "MEM_RD" => (twoNumbers args).map fun p => memRd p.1 p.2
  | "REC_STORE" => if args = [] then some recStore else none
  | "SLOT_RD" => (oneNumber args).map slotRd
  | "RANKS_RD" => (oneNumber args).map ranksRd
  | _ => none

/-- The bytes of a DIN byte sequence, each below 256. -/
def byteList : List Text → Option (List Byte)
  | [] => some []
  | t :: rest =>
    match number (trim t), byteList rest with
    | some n, some d => if n < 256 then some (BitVec.ofNat 8 n :: d) else none
    | _, _ => none

/-- DIN=value or DIN=[b0, .., bn-1] (R99). -/
def dataOperand (t : Text) : Option Din :=
  match t with
  | 'D' :: 'I' :: 'N' :: '=' :: '[' :: rest =>
    match rest.reverse with
    | ']' :: inner =>
      if trim inner.reverse = [] then some (.bytes []) else (byteList (pieces ',' inner.reverse)).map .bytes
    | _ => none
  | 'D' :: 'I' :: 'N' :: '=' :: rest =>
    (number rest).bind fun n => if n < 2 ^ Config.dataWidth then some (.int (BitVec.ofNat _ n)) else none
  | _ => none

/-- A data operand written with a command is one that the command takes, and one that it takes is written (R14, R99). -/
def takes (i : Instr) (din : Option Din) : Option Din :=
  match i, din with
  | .recLoad, some (.bytes d) => some (.bytes d)
  | .bbWrite _ _, some (.int v) => some (.int v)
  | .itemEnc, some (.int v) => some (.int v)
  | .itemDec, some (.int v) => some (.int v)
  | .rankEnc, some (.int v) => some (.int v)
  | .rankDec, some (.int v) => some (.int v)
  | .fieldWr _ _ _, some (.int v) => some (.int v)
  | .bbRead _ _, none => some (.int 0)
  | .layout _, none => some (.int 0)
  | .recDecode, none => some (.int 0)
  | .recEncode, none => some (.int 0)
  | .recClear, none => some (.int 0)
  | .fieldRd _ _ _, none => some (.int 0)
  | _, _ => none

/-- The mnemonic and the operands of a command's text. -/
def commandText (t : Text) : Option Instr :=
  let mnemonic := t.takeWhile fun c => !isGap c
  let operands := trim (t.dropWhile fun c => !isGap c)
  command mnemonic (if operands = [] then [] else (pieces ',' operands).map trim)

/-- What the host presents for a line of assembly text: none for a blank line, a comment, or text that is no command
(R99). -/
def assemble (line : Text) : Option HostInput :=
  match (pieces ';' (beforeComment line)).map trim with
  | [c] =>
    (commandText c).bind fun i =>
      if i.wellFormed then (takes i none).map fun d => .command (encode i) d else none
  | [c, d] =>
    (commandText c).bind fun i =>
      if i.wellFormed then ((dataOperand d).bind fun d => takes i (some d)).map fun d => .command (encode i) d else none
  | _ => none

end Sys2Proof.Machine
end

