-- ==== Sys2Proof/Safety.lean ====
section
/-!
DEFINITION. What a sound state of the block is, and what a run shows (10_state.md rules R21 and R37, 30_encoding.md rule
R80, 60_exceptions.md rule R253).
-/

namespace Sys2Proof.Machine

/-- A response is a fault. -/
def Response.faulted (r : Response) : Bool := r.status != .ok

/-- A response keeps R80: DOUT is 0 whenever STATUS is FAULT. -/
def Response.sound (r : Response) : Bool := !r.faulted || r.dout == 0

/-- The invariant of the machine: BUF is in canonical form and within 424 bytes (R21); FAULT_KIND holds one of the codes
0..5 (R37); every response keeps R80; and the run has faulted exactly when FAULT_KIND is not 0 (R253). -/
structure State.Inv (s : State) : Prop where
  bufCanonical : s.buf.wf = true
  faultKindLegal : s.faultKind.toNat ≤ 5
  responsesSound : s.responses.all Response.sound = true
  faultedIffKind : s.responses.any Response.faulted = true ↔ s.faultKind ≠ 0

/-- The commands that change BUF: "Only BB_WRITE, REC_LOAD, REC_ENCODE and reset change it" (R22). -/
def writesBuf : Instr → Bool
  | .bbRead _ _ => false
  | .bbWrite _ _ => true
  | .recLoad => true
  | .layout _ => false
  | .itemEnc => false
  | .itemDec => false
  | .rankEnc => false
  | .rankDec => false
  | .recDecode => false
  | .recEncode => true
  | .recClear => false
  | .fieldRd _ _ _ => false
  | .fieldWr _ _ _ => false

/-- The commands that change F: REC_DECODE (R192), REC_CLEAR (R205) and FIELD_WR (R209). -/
def writesFields : Instr → Bool
  | .bbRead _ _ => false
  | .bbWrite _ _ => false
  | .recLoad => false
  | .layout _ => false
  | .itemEnc => false
  | .itemDec => false
  | .rankEnc => false
  | .rankDec => false
  | .recDecode => true
  | .recEncode => false
  | .recClear => true
  | .fieldRd _ _ _ => false
  | .fieldWr _ _ _ => true

/-- The "raised by" column of R231: which commands raise which kind. -/
def raises (i : Instr) : FaultKind → Bool
  | .illegalCommand => true
  | .indexOutOfRange => match i with
    | .fieldRd _ _ _ | .fieldWr _ _ _ => true
    | _ => false
  | .bitRangeOutOfBounds => match i with
    | .bbRead _ _ | .bbWrite _ _ => true
    | _ => false
  | .valueTooWide => match i with
    | .bbWrite _ _ | .itemEnc | .itemDec | .rankEnc | .rankDec | .fieldWr _ _ _ => true
    | _ => false
  | .unexpectedRecordLength => match i with
    | .recLoad => true
    | _ => false
  | .unsupportedVersion => false
  | .base64DecodeError => false
  | .decompressionError => false

/-- The command word `w` is illegal: a reserved opcode (R91), a set RSV bit of its format (R92), or a FID of 11 or more
in format F or L (R93). Written from the bits of the word alone, apart from the decoder. -/
def illegalWord (w : Word) : Prop :=
  let op := w.toNat / 2 ^ 28
  let fid := w.toNat / 2 ^ 24 % 16
  (op = 0 ∨ op = 14 ∨ op = 15) ∨
  ((op = 1 ∨ op = 2) ∧ w.toNat % 2 ^ 4 ≠ 0) ∨
  ((op = 12 ∨ op = 13) ∧ w.toNat % 2 ^ 16 ≠ 0) ∨
  (op = 4 ∧ w.toNat % 2 ^ 24 ≠ 0) ∨
  ((op = 3 ∨ (5 ≤ op ∧ op ≤ 11)) ∧ w.toNat % 2 ^ 28 ≠ 0) ∨
  ((op = 4 ∨ op = 12 ∨ op = 13) ∧ 11 ≤ fid)

/-- The data operand is of the wrong kind for the command word `w`: a byte sequence for a command other than REC_LOAD
(opcode 3), or an integer for REC_LOAD (R87). -/
def wrongKind (w : Word) : Din → Prop
  | .int _ => w.toNat / 2 ^ 28 = 3
  | .bytes _ => w.toNat / 2 ^ 28 ≠ 3

/-- Presented with the command word `w` and the data operand `d`, the block raises ILLEGAL_COMMAND, records the word, and does
nothing else (R232, R236). -/
def raisesIllegal (w : Word) (d : Din) : Prop :=
  ∀ (s : State) (rest : List HostInput), s.inputs = .command w d :: rest →
    step s = .next { s with cmd := w, din := d, inputs := rest, faultKind := 1, faultCmd := w,
                            responses := ⟨.fault .illegalCommand, 0⟩ :: s.responses }

/-- The word `w` is the command `i`, and every other word of its opcode raises ILLEGAL_COMMAND: the encoding of a command of
format N (R85, R92). -/
def soleWord (w : Word) (i : Instr) : Prop :=
  decode w = .ok i ∧ ∀ (w' : Word) (d : Din), w'.toNat / 2 ^ 28 = w.toNat / 2 ^ 28 → w' ≠ w → raisesIllegal w' d

end Sys2Proof.Machine
end

