-- ==== Sys2Proof/Certificates/Slice0/Obligations.lean ====
section
/-!
DEFINITION. The statements about the model, for the provers. Each statement of what a command leaves behind writes the whole next
state as an update of the state before, so whatever the update does not name is unchanged: that is the command's frame.
-/

open Sys2Proof Sys2Proof.Machine

section Encoding

/-- Decode of encode is the instruction, for every well-formed instruction, so no operand bit is dropped (30_encoding.md section 6). -/
def Obligations.DecodeOfEncodeIsTheInstruction : Prop :=
  ∀ i : Instr, WellFormed i → decode (encode i) = .ok i

/-- The command word of each format, as R96 builds it, with the opcodes of R90 and the FIDs of R23. -/
def Obligations.CommandWordsAreBuiltByFormat : Prop :=
  (∀ off len : Nat, off < 4096 → len < 4096 →
    (encode (.bbRead off len)).toNat = 0x1 <<< 28 ||| off <<< 16 ||| len <<< 4 ∧
    (encode (.bbWrite off len)).toNat = 0x2 <<< 28 ||| off <<< 16 ||| len <<< 4) ∧
  (∀ e ∈ [(FieldId.version, 0), (.unitItems, 1), (.boardUnitIDs, 2), (.selectedTalents, 3), (.unitRanks, 4), (.benchUnitItems, 5),
      (.benchedUnitIDs, 6), (.benchUnitRanks, 7), (.underlordIDs, 8), (.underlordRanks, 9), (.unequippedItems, 10)],
    (encode (.layout e.1)).toNat = 0x4 <<< 28 ||| e.2 <<< 24 ∧
    ∀ i j : Nat, i < 16 → j < 16 →
      (encode (.fieldRd e.1 i j)).toNat = 0xC <<< 28 ||| e.2 <<< 24 ||| i <<< 20 ||| j <<< 16 ∧
      (encode (.fieldWr e.1 i j)).toNat = 0xD <<< 28 ||| e.2 <<< 24 ||| i <<< 20 ||| j <<< 16) ∧
  (∀ e ∈ [(Instr.recLoad, 0x3), (.itemEnc, 0x5), (.itemDec, 0x6), (.rankEnc, 0x7), (.rankDec, 0x8), (.recDecode, 0x9),
      (.recEncode, 0xA), (.recClear, 0xB)],
    (encode e.1).toNat = e.2 <<< 28)

/-- A word that decodes is the word of its instruction, which is well-formed: each word has one meaning (30_encoding.md section 6). -/
def Obligations.DecodedWordIsTheEncoding : Prop :=
  ∀ (w : Word) (i : Instr), decode w = .ok i → WellFormed i ∧ encode i = w

/-- Exactly the words that R91, R92 and R93 call illegal are refused by the decoder; every other word is a command (R94, R95). -/
def Obligations.EveryWordIsIllegalOrACommand : Prop :=
  ∀ w : Word, (illegalWord w → ∃ e, decode w = .error e) ∧ (¬illegalWord w → ∃ i, decode w = .ok i)

/-- Words written out from the formats of 30_encoding.md section 2 decode to the commands they stand for. -/
def Obligations.WordsWrittenOutDecode : Prop :=
  decode 0b0001_001101101000_000000011000_0000#32 = .ok (.bbRead 872 24) ∧
  decode 0b0010_000000000110_000000000100_0000#32 = .ok (.bbWrite 6 4) ∧
  decode 0b0011_0000000000000000000000000000#32 = .ok .recLoad ∧
  decode 0b0100_1010_000000000000000000000000#32 = .ok (.layout .unequippedItems) ∧
  decode 0b0110_0000000000000000000000000000#32 = .ok .itemDec ∧
  decode 0b0111_0000000000000000000000000000#32 = .ok .rankEnc ∧
  decode 0b1001_0000000000000000000000000000#32 = .ok .recDecode ∧
  decode 0b1100_0011_1111_0001_0000000000000000#32 = .ok (.fieldRd .selectedTalents 15 1) ∧
  decode 0b1101_0001_0100_0100_0000000000000000#32 = .ok (.fieldWr .unitItems 4 4)

/-- The pseudo-instructions are the commands of R100, and REC_STORE assembles to 0x1000D400. That BYTE_RD expands alike above byte 423 is
the model's choice (notes/assumptions/12.md). -/
def Obligations.PseudoInstructionsExpand : Prop :=
  (∀ n k : Nat, byteRd n = .bbRead (8 * n) 8 ∧ byteWr n = .bbWrite (8 * n) 8 ∧ memRd n k = .bbRead (8 * n) (8 * k) ∧
    slotRd n = .bbRead (8 * n) 24 ∧ ranksRd n = .bbRead (8 * n) 32) ∧
  recStore = .bbRead 0 3392 ∧ encode recStore = 0x1000D400

/-- The example lines of R14 and R96 assemble to the words that R96 gives. -/
def Obligations.AssemblyExamples : Prop :=
  assemble "BB_READ 872, 24".toList = some (.command 0x13680180 (.int 0)) ∧
  assemble "FIELD_WR unitItems, 4, 4 ; DIN=10211".toList = some (.command 0xD1440000 (.int 10211)) ∧
  assemble "REC_STORE".toList = some (.command 0x1000D400 (.int 0))

end Encoding

section Steps

/-- A step performs the command that the host presents, with its word and its data on the port and the rest of the host's inputs left. -/
def Obligations.StepRunsTheDecodedInstruction : Prop :=
  ∀ (s : State) (w : Word) (d : Din) (rest : List HostInput) (i : Instr),
    s.inputs = .command w d :: rest → decode w = .ok i →
      step s = exec i { s with cmd := w, din := d, inputs := rest }

/-- withFetchWord has the next step run its instruction with a data operand of the right kind (the model's choice: notes/assumptions/3.md). -/
def Obligations.FetchWordRunsNext : Prop :=
  ∀ (s : State) (w : Nat) (i : Instr), decodeTableWord 32 w = some i →
    ∃ d : Din, step (s.withFetchWord 32 w) = exec i { s with cmd := BitVec.ofNat 32 w, din := d } ∧
      (i = .recLoad → d = .bytes (List.replicate 424 0)) ∧ (i ≠ .recLoad → d = .int 0)

/-- Between commands the block holds its state unchanged (R252). -/
def Obligations.HoldsBetweenCommands : Prop :=
  ∀ s : State, s.inputs = [] → step s = .next s

/-- The reset input puts BUF, F, FAULT_KIND and FAULT_CMD at 0, whatever they held (R260). -/
def Obligations.ResetInputClearsEverything : Prop :=
  ∀ (s : State) (rest : List HostInput), s.inputs = .reset :: rest →
    ∃ t, step s = .next t ∧ (∀ a, t.buf.read a = 0) ∧ (∀ p < 3392, t.buf.bit p = false) ∧
      (∀ fid i j, ¬indexOutOfRange fid i j → t.f.read fid i j = 0) ∧ t.faultKind = 0 ∧ t.faultCmd = 0 ∧ t.inputs = rest

/-- The state after reset holds the reset values of R41. -/
def Obligations.ResetStateIsAllZero : Prop :=
  (∀ p, State.reset.buf.bit p = false) ∧ (∀ fid i j, State.reset.f.read fid i j = 0) ∧
    State.reset.faultKind = 0 ∧ State.reset.faultCmd = 0

/-- Every step answers a next state: no command stops the block (R230, R251). -/
def Obligations.EveryStepAnswersANextState : Prop :=
  ∀ s : State, ∃ t, step s = .next t

/-- Every command gives exactly one response. If it is a fault, the fault entry of R236 is all that happens; if it is not, FAULT_KIND and
FAULT_CMD keep the last fault (10_state.md section 4, 60_exceptions.md section 2). -/
def Obligations.FaultEntryChangesNothingElse : Prop :=
  ∀ (s : State) (w : Word) (d : Din) (rest : List HostInput), s.inputs = .command w d :: rest →
    ∃ t r, step s = .next t ∧ t.responses = r :: s.responses ∧
      (∀ k, r.status = .fault k →
        t = { s with cmd := w, din := d, inputs := rest, faultKind := k.code, faultCmd := w,
                     responses := ⟨.fault k, 0⟩ :: s.responses }) ∧
      (r.status = .ok → t.faultKind = s.faultKind ∧ t.faultCmd = s.faultCmd)

/-- The codes of R231, and which commands raise which kind. -/
def Obligations.FaultKindsOfEachCommand : Prop :=
  (FaultKind.illegalCommand.code = 1 ∧ FaultKind.indexOutOfRange.code = 2 ∧ FaultKind.bitRangeOutOfBounds.code = 3 ∧
    FaultKind.valueTooWide.code = 4 ∧ FaultKind.unexpectedRecordLength.code = 5 ∧ FaultKind.unsupportedVersion.code = 6 ∧
    FaultKind.base64DecodeError.code = 7 ∧ FaultKind.decompressionError.code = 8) ∧
  ∀ (i : Instr) (s : State), ∃ t r, exec i s = .next t ∧ t.responses = r :: s.responses ∧
    ∀ k, r.status = .fault k → raises i k = true

/-- A reserved opcode, a set RSV bit, a FID of 11 or more, or a DIN of the wrong kind raises ILLEGAL_COMMAND and has no other effect (R232). -/
def Obligations.IllegalCommandsFault : Prop :=
  ∀ (s : State) (w : Word) (d : Din) (rest : List HostInput), s.inputs = .command w d :: rest →
    illegalWord w ∨ wrongKind w d →
      step s = .next { s with cmd := w, din := d, inputs := rest, faultKind := 1, faultCmd := w,
                              responses := ⟨.fault .illegalCommand, 0⟩ :: s.responses }

/-- A DIN of the wrong kind raises ILLEGAL_COMMAND in every form of every command (R87). -/
def Obligations.WrongKindOfDinFaults : Prop :=
  ∀ s : State,
    (∀ i d, i ≠ .recLoad → s.din = .bytes d →
      exec i s = .next { s with faultKind := 1, faultCmd := s.cmd,
                                responses := ⟨.fault .illegalCommand, 0⟩ :: s.responses }) ∧
    (∀ v, s.din = .int v →
      exec .recLoad s = .next { s with faultKind := 1, faultCmd := s.cmd,
                                       responses := ⟨.fault .illegalCommand, 0⟩ :: s.responses })

/-- The priority of faults: ILLEGAL_COMMAND before all others, then the index or the range before the width; and besides ILLEGAL_COMMAND no
command lists any other two kinds (R239). -/
def Obligations.FaultPriority : Prop :=
  (∀ (s : State) (w : Word) (d : Din) (rest : List HostInput), s.inputs = .command w d :: rest →
    illegalWord w ∨ wrongKind w d → ∃ t, step s = .next t ∧
      t.responses = ⟨.fault .illegalCommand, 0⟩ :: s.responses) ∧
  (∀ (s : State) (fid : FieldId) (i j : Nat) (v : Data), s.din = .int v → indexOutOfRange fid i j → tooWide v fid.width →
    ∃ t, exec (.fieldWr fid i j) s = .next t ∧ t.responses = ⟨.fault .indexOutOfRange, 0⟩ :: s.responses) ∧
  (∀ (s : State) (off len : Nat) (v : Data), s.din = .int v → 3392 < off + len → tooWide v len →
    ∃ t, exec (.bbWrite off len) s = .next t ∧ t.responses = ⟨.fault .bitRangeOutOfBounds, 0⟩ :: s.responses) ∧
  (∀ (i : Instr) (k k' : FaultKind), raises i k = true → raises i k' = true → k ≠ .illegalCommand → k' ≠ .illegalCommand →
    k.code.toNat < k'.code.toNat → (k = .indexOutOfRange ∨ k = .bitRangeOutOfBounds) ∧ k' = .valueTooWide)

/-- Only BB_WRITE, REC_LOAD, REC_ENCODE and reset change BUF (R22). -/
def Obligations.BufChangesOnlyByItsWriters : Prop :=
  ∀ s t : State, step s = .next t → t.buf ≠ s.buf →
    (∃ rest, s.inputs = .reset :: rest) ∨
    ∃ w d rest i, s.inputs = .command w d :: rest ∧ decode w = .ok i ∧
      ((∃ off len, i = .bbWrite off len) ∨ i = .recLoad ∨ i = .recEncode)

/-- Only FIELD_WR, REC_DECODE, REC_CLEAR and reset change F (44_board_record.md sections 2 and 4, 91_not_in_source.md N20). -/
def Obligations.FieldsChangeOnlyByTheirWriters : Prop :=
  ∀ s t : State, step s = .next t → t.f ≠ s.f →
    (∃ rest, s.inputs = .reset :: rest) ∨
    ∃ w d rest i, s.inputs = .command w d :: rest ∧ decode w = .ok i ∧
      ((∃ fid a b, i = .fieldWr fid a b) ∨ i = .recDecode ∨ i = .recClear)

/-- Every step keeps the invariant: BUF canonical and within 424 bytes, FAULT_KIND one of 0..5, DOUT 0 in every fault, and the run faulted
exactly when FAULT_KIND is not 0 (R21, R37, R80, R253). -/
def Obligations.EveryStepKeepsTheInvariant : Prop :=
  ∀ s t : State, s.Inv → step s = .next t → t.Inv

/-- The state after reset meets the invariant. -/
def Obligations.ResetMeetsTheInvariant : Prop := State.reset.Inv

end Steps

section BitBuffer

/-- Byte n of the record is positions 8n..8n+7, and position 8n is its bit 7 (R50). -/
def Obligations.PositionsAreMostSignificantFirst : Prop :=
  ∀ (m : Memory) (n k : Nat), k < 8 → m.bit (8 * n + k) = (m.read n).getLsbD (7 - k)

/-- BB_READ returns the bits of its range, the first position the most significant, and changes nothing; past the end it faults (R111). -/
def Obligations.BbReadReturnsTheRange : Prop :=
  (∀ off len : Nat, off < 4096 → len < 4096 →
    decode (BitVec.ofNat 32 (0x1 <<< 28 ||| off <<< 16 ||| len <<< 4)) = .ok (.bbRead off len)) ∧
  ∀ (s : State) (off len : Nat) (v : Data), s.din = .int v →
    (off + len ≤ 3392 → ∃ d : Data,
      exec (.bbRead off len) s = .next { s with responses := ⟨.ok, d⟩ :: s.responses } ∧ d.toNat < 2 ^ len ∧
      ∀ i < len, d.toNat.testBit (len - 1 - i) = s.buf.bit (off + i)) ∧
    (3392 < off + len →
      exec (.bbRead off len) s = .next { s with faultKind := 3, faultCmd := s.cmd,
                                                responses := ⟨.fault .bitRangeOutOfBounds, 0⟩ :: s.responses })

/-- BB_WRITE stores DIN in its range, left-padded with zeros, and every bit and byte outside the range keeps its value; past the end, or with
a value of more than LEN bits, it faults and writes no bit (R113, R114). -/
def Obligations.BbWriteStoresTheRange : Prop :=
  (∀ off len : Nat, off < 4096 → len < 4096 →
    decode (BitVec.ofNat 32 (0x2 <<< 28 ||| off <<< 16 ||| len <<< 4)) = .ok (.bbWrite off len)) ∧
  ∀ (s : State) (off len : Nat) (v : Data), s.buf.wf = true → s.din = .int v →
    (off + len ≤ 3392 → v.toNat < 2 ^ len → ∃ m : Memory,
      exec (.bbWrite off len) s = .next { s with buf := m, responses := ⟨.ok, 0⟩ :: s.responses } ∧
      (∀ i < len, m.bit (off + i) = v.toNat.testBit (len - 1 - i)) ∧
      (∀ p, p < off ∨ off + len ≤ p → m.bit p = s.buf.bit p) ∧
      (∀ a, 8 * a + 8 ≤ off ∨ off + len ≤ 8 * a → m.read a = s.buf.read a)) ∧
    (3392 < off + len →
      exec (.bbWrite off len) s = .next { s with faultKind := 3, faultCmd := s.cmd,
                                                 responses := ⟨.fault .bitRangeOutOfBounds, 0⟩ :: s.responses }) ∧
    (off + len ≤ 3392 → 2 ^ len ≤ v.toNat →
      exec (.bbWrite off len) s = .next { s with faultKind := 4, faultCmd := s.cmd,
                                                 responses := ⟨.fault .valueTooWide, 0⟩ :: s.responses })

/-- After BB_WRITE, BB_READ of the same range returns the value, and of a disjoint range what it returned before (R115). -/
def Obligations.ReadAfterWrite : Prop :=
  ∀ (s : State) (off len : Nat) (v : Data), s.buf.wf = true → s.din = .int v → off + len ≤ 3392 → v.toNat < 2 ^ len →
    ∃ t, exec (.bbWrite off len) s = .next t ∧
      exec (.bbRead off len) t = .next { t with responses := ⟨.ok, v⟩ :: t.responses } ∧
      ∀ o l, o + l ≤ 3392 → o + l ≤ off ∨ off + len ≤ o →
        ∃ d, exec (.bbRead o l) s = .next { s with responses := ⟨.ok, d⟩ :: s.responses } ∧
          exec (.bbRead o l) t = .next { t with responses := ⟨.ok, d⟩ :: t.responses }

/-- BB_READ of n bytes from byte a returns them big-endian (R51). -/
def Obligations.ByteRangesReadBigEndian : Prop :=
  ∀ (s : State) (a n : Nat) (v : Data), s.din = .int v → 8 * a + 8 * n ≤ 3392 →
    ∃ d : Data, exec (memRd a n) s = .next { s with responses := ⟨.ok, d⟩ :: s.responses } ∧
      ∀ k < n, d.toNat / 256 ^ (n - 1 - k) % 256 = (s.buf.read (a + k)).toNat

/-- REC_LOAD places byte k of DIN at record byte k and changes nothing else; of any other length than 424 it faults (R116). -/
def Obligations.RecLoadPlacesTheRecord : Prop :=
  soleWord 0x30000000 .recLoad ∧ (∀ v, raisesIllegal 0x30000000 (.int v)) ∧
  ∀ (s : State) (d : List Byte), s.buf.wf = true → s.din = .bytes d →
    (d.length = 424 → ∃ m : Memory,
      exec .recLoad s = .next { s with buf := m, responses := ⟨.ok, 0⟩ :: s.responses } ∧
      (∀ k (h : k < d.length), m.read k = d[k]) ∧ (∀ a, 424 ≤ a → m.read a = s.buf.read a)) ∧
    (d.length ≠ 424 →
      exec .recLoad s = .next { s with faultKind := 5, faultCmd := s.cmd,
                                       responses := ⟨.fault .unexpectedRecordLength, 0⟩ :: s.responses })

/-- REC_LOAD followed by REC_STORE returns the record loaded (R117). -/
def Obligations.StoreReturnsTheLoadedRecord : Prop :=
  ∀ (s : State) (d : List Byte) (v : Data), s.buf.wf = true → s.din = .bytes d → d.length = 424 →
    ∃ t p, exec .recLoad s = .next t ∧
      exec recStore { t with din := .int v } = .next { t with din := .int v, responses := ⟨.ok, p⟩ :: t.responses } ∧
      bytesOf 424 p.toNat = d

end BitBuffer

section Layout

/-- LAYOUT returns offset * 2^16 + length of the table of R131 and changes nothing (R135). -/
def Obligations.LayoutReturnsTheTable : Prop :=
  (∀ (w : Word) (d : Din), w.toNat / 2 ^ 28 = 0x4 → 11 ≤ w.toNat / 2 ^ 24 % 16 ∨ w.toNat % 2 ^ 24 ≠ 0 → raisesIllegal w d) ∧
  ∀ (s : State) (v : Data), s.din = .int v →
    ∀ e ∈ [(FieldId.version, 0, 0, 1), (.unitItems, 1, 1, 192), (.boardUnitIDs, 2, 193, 64), (.selectedTalents, 3, 257, 32),
        (.unitRanks, 4, 292, 32), (.benchUnitItems, 5, 324, 24), (.benchedUnitIDs, 6, 348, 8), (.benchUnitRanks, 7, 356, 4),
        (.underlordIDs, 8, 360, 2), (.underlordRanks, 9, 362, 2), (.unequippedItems, 10, 364, 60)],
      decode (BitVec.ofNat 32 (0x4 <<< 28 ||| e.2.1 <<< 24)) = .ok (.layout e.1) ∧
      exec (.layout e.1) s =
        .next { s with responses := ⟨.ok, BitVec.ofNat 3392 (e.2.2.1 * 2 ^ 16 + e.2.2.2)⟩ :: s.responses }

/-- No two element addresses overlap, and each element lies in its field's byte range, which lies within the record (R136). -/
def Obligations.ElementsAreDisjointAndInBounds : Prop :=
  elementRanges.Pairwise (fun x y => x.2.1 + x.2.2 ≤ y.2.1 ∨ y.2.1 + y.2.2 ≤ x.2.1) ∧
  (∀ x ∈ elementRanges, x.1.layout.1 ≤ x.2.1 ∧ x.2.1 + x.2.2 ≤ x.1.layout.1 + x.1.layout.2 ∧
    x.1.layout.1 + x.1.layout.2 ≤ 424)

/-- Of the 424 bytes, 103 are reserved and 321 carry element data (R134). -/
def Obligations.ReservedBytesAreCounted : Prop :=
  ((List.range 424).filter reservedByte).length = 103 ∧ ((List.range 424).filter (fun a => !reservedByte a)).length = 321

end Layout

section Codecs

/-- ITEM_ENC packs an id's low byte, its high byte and a zero byte, and changes nothing else; a wider DIN faults (R152). -/
def Obligations.ItemEncPacksTheId : Prop :=
  soleWord 0x50000000 .itemEnc ∧
  ∀ (s : State) (v : Data), s.din = .int v →
    (v.toNat < 2 ^ 16 → ∃ d : Data,
      exec .itemEnc s = .next { s with responses := ⟨.ok, d⟩ :: s.responses } ∧
      d.toNat = (v.toNat &&& 0xFF) * 2 ^ 16 + ((v.toNat >>> 8) &&& 0xFF) * 2 ^ 8) ∧
    (2 ^ 16 ≤ v.toNat →
      exec .itemEnc s = .next { s with faultKind := 4, faultCmd := s.cmd,
                                       responses := ⟨.fault .valueTooWide, 0⟩ :: s.responses })

/-- ITEM_DEC returns DIN[15:8] * 256 + DIN[23:16], whatever the reserved byte DIN[7:0], and changes nothing else; a wider DIN faults (R154). -/
def Obligations.ItemDecUnpacksTheSlot : Prop :=
  soleWord 0x60000000 .itemDec ∧
  ∀ (s : State) (v : Data), s.din = .int v →
    (v.toNat < 2 ^ 24 → ∃ d : Data,
      exec .itemDec s = .next { s with responses := ⟨.ok, d⟩ :: s.responses } ∧
      d.toNat = v.toNat / 2 ^ 8 % 256 * 256 + v.toNat / 2 ^ 16) ∧
    (2 ^ 24 ≤ v.toNat →
      exec .itemDec s = .next { s with faultKind := 4, faultCmd := s.cmd,
                                       responses := ⟨.fault .valueTooWide, 0⟩ :: s.responses })

/-- ITEM_DEC of ITEM_ENC is the id, and ITEM_ENC of ITEM_DEC is the slot with its reserved byte zeroed (R156). -/
def Obligations.ItemSlotRoundTrip : Prop :=
  ∀ (s s' : State) (v : Data), s.din = .int v →
    (v.toNat < 2 ^ 16 → ∃ d : Data,
      exec .itemEnc s = .next { s with responses := ⟨.ok, d⟩ :: s.responses } ∧
      (s'.din = .int d → exec .itemDec s' = .next { s' with responses := ⟨.ok, v⟩ :: s'.responses })) ∧
    (v.toNat < 2 ^ 24 → ∃ d e : Data,
      exec .itemDec s = .next { s with responses := ⟨.ok, d⟩ :: s.responses } ∧
      e.toNat = v.toNat / 2 ^ 8 * 2 ^ 8 ∧
      (s'.din = .int d → exec .itemEnc s' = .next { s' with responses := ⟨.ok, e⟩ :: s'.responses }))

/-- RANK_ENC stores the low four bits of lane j in nibble j of the little-endian packed field, and changes nothing else; a wider DIN faults (R172). -/
def Obligations.RankEncPacksTheLanes : Prop :=
  soleWord 0x70000000 .rankEnc ∧
  ∀ (s : State) (v : Data), s.din = .int v →
    (v.toNat < 2 ^ 64 → ∃ d : Data,
      exec .rankEnc s = .next { s with responses := ⟨.ok, d⟩ :: s.responses } ∧ d.toNat < 2 ^ 32 ∧
      ∀ j < 8, ∀ k < 4, d.toNat.testBit (8 * (3 - j / 2) + 4 * (j % 2) + k) = v.toNat.testBit (8 * j + k)) ∧
    (2 ^ 64 ≤ v.toNat →
      exec .rankEnc s = .next { s with faultKind := 4, faultCmd := s.cmd,
                                       responses := ⟨.fault .valueTooWide, 0⟩ :: s.responses })

/-- RANK_DEC gives lane j the value (n & 7) + 16 * (n >> 3) of nibble j, n, of the little-endian packed field, and changes nothing else; a
wider DIN faults (R174, R178). -/
def Obligations.RankDecUnpacksTheNibbles : Prop :=
  soleWord 0x80000000 .rankDec ∧
  ∀ (s : State) (v : Data), s.din = .int v →
    (v.toNat < 2 ^ 32 → ∃ d : Data,
      exec .rankDec s = .next { s with responses := ⟨.ok, d⟩ :: s.responses } ∧ d.toNat < 2 ^ 64 ∧
      ∀ j < 8, ∀ n, n = v.toNat / 2 ^ (8 * (3 - j / 2) + 4 * (j % 2)) % 16 →
        d.toNat / 2 ^ (8 * j) % 256 = (n &&& 7) + 16 * (n >>> 3)) ∧
    (2 ^ 32 ≤ v.toNat →
      exec .rankDec s = .next { s with faultKind := 4, faultCmd := s.cmd,
                                       responses := ⟨.fault .valueTooWide, 0⟩ :: s.responses })

/-- Ranks through RANK_ENC and then RANK_DEC: 0..7 come back unchanged (R177), 8..15 come back 8 larger (R179), and every rank comes back as
(r & 7) + 16 * ((r >> 3) & 1) (R180). -/
def Obligations.RankRoundTripAndDivergence : Prop :=
  ∀ (s s' : State) (v : Data), s.din = .int v → v.toNat < 2 ^ 64 →
    ∃ p d : Data, exec .rankEnc s = .next { s with responses := ⟨.ok, p⟩ :: s.responses } ∧
      (s'.din = .int p → exec .rankDec s' = .next { s' with responses := ⟨.ok, d⟩ :: s'.responses }) ∧
      (∀ j < 8, ∀ r, r = v.toNat / 2 ^ (8 * j) % 256 →
        d.toNat / 2 ^ (8 * j) % 256 = (r &&& 7) + 16 * ((r >>> 3) &&& 1) ∧
        (8 ≤ r → r ≤ 15 → d.toNat / 2 ^ (8 * j) % 256 = r + 8)) ∧
      ((∀ j < 8, v.toNat / 2 ^ (8 * j) % 256 ≤ 7) → d = v)

/-- The response of the item and rank commands is a function of DIN alone, and they leave BUF and F alone (42_item_slot.md and 43_rank_packer.md:
"Both are pure functions of DIN"). -/
def Obligations.CodecCommandsArePure : Prop :=
  ∀ i ∈ [Instr.itemEnc, .itemDec, .rankEnc, .rankDec], ∀ s s' : State, s.din = s'.din →
    ∃ t t' r, exec i s = .next t ∧ exec i s' = .next t' ∧ t.responses = r :: s.responses ∧ t'.responses = r :: s'.responses ∧
      t.buf = s.buf ∧ t.f = s.f

end Codecs

section Records

/-- REC_DECODE overwrites every element of F from its bytes of BUF, and changes nothing else (R192). -/
def Obligations.RecDecodeReadsEveryElement : Prop :=
  soleWord 0x90000000 .recDecode ∧ (∀ d, raisesIllegal 0x90000000 (.bytes d)) ∧
  ∀ (s : State) (v : Data), s.din = .int v → ∃ g : Fields,
    exec .recDecode s = .next { s with f := g, responses := ⟨.ok, 0⟩ :: s.responses } ∧
    g.read .version 0 0 = (s.buf.read 0).toNat ∧
    (∀ a < 8, ∀ b < 8, ∀ x, x = 1 + 3 * (8 * a + b) →
      g.read .unitItems a b = (s.buf.read (x + 1)).toNat * 256 + (s.buf.read x).toNat) ∧
    (∀ a < 8, ∀ b < 8, g.read .boardUnitIDs a b = (s.buf.read (193 + 8 * a + b)).toNat) ∧
    (∀ t < 16, ∀ p < 2, g.read .selectedTalents t p = (s.buf.read (257 + 2 * t + p)).toNat) ∧
    (∀ a < 8, ∀ b < 8, ∀ n, n = (s.buf.read (292 + 4 * b + a / 2)).toNat / 16 ^ (a % 2) % 16 →
      g.read .unitRanks a b = (n &&& 7) + 16 * (n >>> 3)) ∧
    (∀ i < 8, ∀ x, x = 324 + 3 * i →
      g.read .benchUnitItems i 0 = (s.buf.read (x + 1)).toNat * 256 + (s.buf.read x).toNat) ∧
    (∀ i < 8, g.read .benchedUnitIDs i 0 = (s.buf.read (348 + i)).toNat) ∧
    (∀ i < 8, ∀ n, n = (s.buf.read (356 + i / 2)).toNat / 16 ^ (i % 2) % 16 →
      g.read .benchUnitRanks i 0 = (n &&& 7) + 16 * (n >>> 3)) ∧
    (∀ p < 2, g.read .underlordIDs p 0 = (s.buf.read (360 + p)).toNat) ∧
    (∀ p < 2, g.read .underlordRanks p 0 = (s.buf.read (362 + p)).toNat) ∧
    (∀ i < 8, ∀ j < 2, ∀ x, x = 364 + 3 * (2 * i + j) →
      g.read .unequippedItems i j = (s.buf.read (x + 1)).toNat * 256 + (s.buf.read x).toNat)

/-- No element of F depends on a reserved byte: two BUF contents that differ only in reserved bytes decode to the same F (R196). -/
def Obligations.ReservedBytesDoNotDecode : Prop :=
  ∀ (s s' : State) (v v' : Data), s.din = .int v → s'.din = .int v' →
    (∀ a < 424, reservedByte a = false → s.buf.read a = s'.buf.read a) →
      ∃ g, exec .recDecode s = .next { s with f := g, responses := ⟨.ok, 0⟩ :: s.responses } ∧
        exec .recDecode s' = .next { s' with f := g, responses := ⟨.ok, 0⟩ :: s'.responses }

/-- REC_ENCODE overwrites all of BUF with the bytes of every element of F, and changes nothing else (R198). -/
def Obligations.RecEncodeWritesEveryElement : Prop :=
  soleWord 0xA0000000 .recEncode ∧ (∀ d, raisesIllegal 0xA0000000 (.bytes d)) ∧
  ∀ (s : State) (v : Data), s.din = .int v → ∃ m : Memory,
    exec .recEncode s = .next { s with buf := m, responses := ⟨.ok, 0⟩ :: s.responses } ∧
    (m.read 0).toNat = s.f.read .version 0 0 ∧
    (∀ a < 8, ∀ b < 8, ∀ x, x = 1 + 3 * (8 * a + b) → (m.read x).toNat = s.f.read .unitItems a b % 256 ∧
      (m.read (x + 1)).toNat = s.f.read .unitItems a b / 256 ∧ m.read (x + 2) = 0) ∧
    (∀ a < 8, ∀ b < 8, (m.read (193 + 8 * a + b)).toNat = s.f.read .boardUnitIDs a b) ∧
    (∀ t < 16, ∀ p < 2, (m.read (257 + 2 * t + p)).toNat = s.f.read .selectedTalents t p) ∧
    (∀ b < 8, ∀ k < 4, (m.read (292 + 4 * b + k)).toNat =
      s.f.read .unitRanks (2 * k) b % 16 + 16 * (s.f.read .unitRanks (2 * k + 1) b % 16)) ∧
    (∀ i < 8, ∀ x, x = 324 + 3 * i → (m.read x).toNat = s.f.read .benchUnitItems i 0 % 256 ∧
      (m.read (x + 1)).toNat = s.f.read .benchUnitItems i 0 / 256 ∧ m.read (x + 2) = 0) ∧
    (∀ i < 8, (m.read (348 + i)).toNat = s.f.read .benchedUnitIDs i 0) ∧
    (∀ k < 4, (m.read (356 + k)).toNat =
      s.f.read .benchUnitRanks (2 * k) 0 % 16 + 16 * (s.f.read .benchUnitRanks (2 * k + 1) 0 % 16)) ∧
    (∀ p < 2, (m.read (360 + p)).toNat = s.f.read .underlordIDs p 0) ∧
    (∀ p < 2, (m.read (362 + p)).toNat = s.f.read .underlordRanks p 0) ∧
    (∀ i < 8, ∀ j < 2, ∀ x, x = 364 + 3 * (2 * i + j) → (m.read x).toNat = s.f.read .unequippedItems i j % 256 ∧
      (m.read (x + 1)).toNat = s.f.read .unequippedItems i j / 256 ∧ m.read (x + 2) = 0) ∧
    (∀ a, (289 ≤ a ∧ a ≤ 291) ∨ 412 ≤ a → m.read a = 0)

/-- After REC_ENCODE every reserved byte is 0 (R202). -/
def Obligations.RecEncodeZeroesReservedBytes : Prop :=
  ∀ (s : State) (v : Data), s.din = .int v →
    ∃ t, exec .recEncode s = .next t ∧ ∀ a < 424, reservedByte a = true → t.buf.read a = 0

/-- REC_ENCODE followed by REC_DECODE leaves F unchanged if every rank is in 0..7; in any case every other element comes back unchanged, and a
rank as R179 and R180 say (R214). -/
def Obligations.RecordRoundTrip : Prop :=
  ∀ (s : State) (v : Data), s.din = .int v →
    ∃ t u, exec .recEncode s = .next t ∧ exec .recDecode t = .next u ∧ u.buf = t.buf ∧
      (∀ fid i j, ¬indexOutOfRange fid i j → fid ≠ .unitRanks → fid ≠ .benchUnitRanks →
        u.f.read fid i j = s.f.read fid i j) ∧
      (∀ fid i j, ¬indexOutOfRange fid i j → fid = .unitRanks ∨ fid = .benchUnitRanks → ∀ r, r = s.f.read fid i j →
        u.f.read fid i j = (r &&& 7) + 16 * ((r >>> 3) &&& 1)) ∧
      ((∀ fid i j, ¬indexOutOfRange fid i j → fid = .unitRanks ∨ fid = .benchUnitRanks → s.f.read fid i j ≤ 7) →
        u.f = s.f)

/-- REC_DECODE followed by REC_ENCODE leaves BUF equal to the original with every reserved byte zeroed and bit 3 of every packed-rank nibble
cleared (R203). -/
def Obligations.RecordReencodingIsLossyOnlyThere : Prop :=
  ∀ (s : State) (v : Data), s.din = .int v →
    ∃ t u, exec .recDecode s = .next t ∧ exec .recEncode t = .next u ∧
      ∀ a < 424,
        (reservedByte a = true → u.buf.read a = 0) ∧
        ((292 ≤ a ∧ a < 324) ∨ (356 ≤ a ∧ a < 360) → u.buf.read a = s.buf.read a &&& 0x77) ∧
        (reservedByte a = false → ¬((292 ≤ a ∧ a < 324) ∨ (356 ≤ a ∧ a < 360)) → u.buf.read a = s.buf.read a)

/-- One field written on a cleared F, then encoded and decoded, leaves every other element at its default, and the written one unchanged when it
is no rank above 7 (R215). -/
def Obligations.FieldIsolation : Prop :=
  ∀ (s : State) (fid : FieldId) (i j : Nat) (v : Data), s.din = .int v → ¬indexOutOfRange fid i j → v.toNat < 2 ^ fid.width →
    ∃ t₁ t₂ t₃ t₄ t₅, exec .recClear s = .next t₁ ∧ exec (.fieldWr fid i j) t₁ = .next t₂ ∧ exec .recEncode t₂ = .next t₃ ∧
      exec .recClear t₃ = .next t₄ ∧ exec .recDecode t₄ = .next t₅ ∧
      (∀ fid' i' j', ¬indexOutOfRange fid' i' j' → ¬(fid' = fid ∧ i' = i ∧ j' = j) → t₅.f.read fid' i' j' = 0) ∧
      ((fid ≠ .unitRanks ∧ fid ≠ .benchUnitRanks) ∨ v.toNat ≤ 7 → t₅.f.read fid i j = v.toNat)

/-- REC_CLEAR sets every element of F to 0 and changes nothing else (R205). -/
def Obligations.RecClearZeroesTheFields : Prop :=
  soleWord 0xB0000000 .recClear ∧ (∀ d, raisesIllegal 0xB0000000 (.bytes d)) ∧
  ∀ (s : State) (v : Data), s.din = .int v → ∃ g : Fields,
    exec .recClear s = .next { s with f := g, responses := ⟨.ok, 0⟩ :: s.responses } ∧
    ∀ fid i j, ¬indexOutOfRange fid i j → g.read fid i j = 0

/-- FIELD_RD returns F[FID][I][J] and changes nothing; an index past the dims of R211 faults (R207, R211). -/
def Obligations.FieldRdReturnsTheElement : Prop :=
  (∀ (w : Word) (d : Din), w.toNat / 2 ^ 28 = 0xC → 11 ≤ w.toNat / 2 ^ 24 % 16 ∨ w.toNat % 2 ^ 16 ≠ 0 → raisesIllegal w d) ∧
  ∀ (s : State) (v : Data), s.din = .int v →
    ∀ e ∈ [(FieldId.version, 0, 1, 1), (.unitItems, 1, 8, 8), (.boardUnitIDs, 2, 8, 8), (.selectedTalents, 3, 16, 2),
        (.unitRanks, 4, 8, 8), (.benchUnitItems, 5, 8, 1), (.benchedUnitIDs, 6, 8, 1), (.benchUnitRanks, 7, 8, 1),
        (.underlordIDs, 8, 2, 1), (.underlordRanks, 9, 2, 1), (.unequippedItems, 10, 8, 2)], ∀ i j : Nat,
      (i < 16 → j < 16 →
        decode (BitVec.ofNat 32 (0xC <<< 28 ||| e.2.1 <<< 24 ||| i <<< 20 ||| j <<< 16)) = .ok (.fieldRd e.1 i j)) ∧
      (i < e.2.2.1 → j < e.2.2.2 → ∃ d : Data,
        exec (.fieldRd e.1 i j) s = .next { s with responses := ⟨.ok, d⟩ :: s.responses } ∧ d.toNat = s.f.read e.1 i j) ∧
      (e.2.2.1 ≤ i ∨ e.2.2.2 ≤ j →
        exec (.fieldRd e.1 i j) s = .next { s with faultKind := 2, faultCmd := s.cmd,
                                                   responses := ⟨.fault .indexOutOfRange, 0⟩ :: s.responses })

/-- FIELD_WR writes its element and no other; an index past the dims, or else a value of more bits than the field of R23 has, faults and writes
nothing (R209). -/
def Obligations.FieldWrWritesTheElement : Prop :=
  (∀ (w : Word) (d : Din), w.toNat / 2 ^ 28 = 0xD → 11 ≤ w.toNat / 2 ^ 24 % 16 ∨ w.toNat % 2 ^ 16 ≠ 0 → raisesIllegal w d) ∧
  ∀ (s : State) (v : Data), s.din = .int v →
    ∀ e ∈ [(FieldId.version, 0, 1, 1, 8), (.unitItems, 1, 8, 8, 16), (.boardUnitIDs, 2, 8, 8, 8), (.selectedTalents, 3, 16, 2, 8),
        (.unitRanks, 4, 8, 8, 8), (.benchUnitItems, 5, 8, 1, 16), (.benchedUnitIDs, 6, 8, 1, 8), (.benchUnitRanks, 7, 8, 1, 8),
        (.underlordIDs, 8, 2, 1, 8), (.underlordRanks, 9, 2, 1, 8), (.unequippedItems, 10, 8, 2, 16)], ∀ i j : Nat,
      (i < 16 → j < 16 →
        decode (BitVec.ofNat 32 (0xD <<< 28 ||| e.2.1 <<< 24 ||| i <<< 20 ||| j <<< 16)) = .ok (.fieldWr e.1 i j)) ∧
      (i < e.2.2.1 → j < e.2.2.2.1 → v.toNat < 2 ^ e.2.2.2.2 → ∃ g : Fields,
        exec (.fieldWr e.1 i j) s = .next { s with f := g, responses := ⟨.ok, 0⟩ :: s.responses } ∧
        g.read e.1 i j = v.toNat ∧
        ∀ fid i' j', ¬indexOutOfRange fid i' j' → ¬(fid = e.1 ∧ i' = i ∧ j' = j) → g.read fid i' j' = s.f.read fid i' j') ∧
      (e.2.2.1 ≤ i ∨ e.2.2.2.1 ≤ j →
        exec (.fieldWr e.1 i j) s = .next { s with faultKind := 2, faultCmd := s.cmd,
                                                   responses := ⟨.fault .indexOutOfRange, 0⟩ :: s.responses }) ∧
      (i < e.2.2.1 → j < e.2.2.2.1 → 2 ^ e.2.2.2.2 ≤ v.toNat →
        exec (.fieldWr e.1 i j) s = .next { s with faultKind := 4, faultCmd := s.cmd,
                                                   responses := ⟨.fault .valueTooWide, 0⟩ :: s.responses })

/-- Every element of F is below 2^width of its field, in every state (R212, with the widths of R23). -/
def Obligations.ElementsFitTheirWidth : Prop :=
  ∀ (f : Fields) (i j : Nat),
    ∀ e ∈ [(FieldId.version, 8), (.unitItems, 16), (.boardUnitIDs, 8), (.selectedTalents, 8), (.unitRanks, 8), (.benchUnitItems, 16),
        (.benchedUnitIDs, 8), (.benchUnitRanks, 8), (.underlordIDs, 8), (.underlordRanks, 8), (.unequippedItems, 16)],
      f.read e.1 i j < 2 ^ e.2

/-- Right after reset, REC_ENCODE followed by REC_STORE returns 0 (R262). -/
def Obligations.ResetEncodesTheDefaultRecord : Prop :=
  ∃ t u, exec .recEncode State.reset = .next t ∧ exec recStore t = .next u ∧ u.responses.head? = some ⟨.ok, 0⟩

end Records
end

