-- ==== Sys2Proof/Laws/Decode.lean ====
section
/-!
SUPPORT. The fields of a command word as numbers, and the opcode map read backwards (30_encoding.md rules R81 to R95).
-/

namespace Sys2Proof

/-- OP as a number (R81). -/
theorem opField_toNat (w : Word) : (opField w).toNat = w.toNat / 2 ^ 28 := by
  have := w.isLt
  simp only [opField, BitVec.extractLsb'_toNat, Nat.shiftRight_eq_div_pow]
  omega

/-- FID as a number (R83). -/
theorem fidField_toNat (w : Word) : (fidField w).toNat = w.toNat / 2 ^ 24 % 16 := by
  simp only [fidField, BitVec.extractLsb'_toNat, Nat.shiftRight_eq_div_pow]

/-- A mask of the low `n` bits finds one set when the word is no multiple of 2^n. -/
theorem and_mask_ne_zero (w : Word) (n : Nat) {m : Word} (hm : m.toNat = 2 ^ n - 1) : w &&& m ≠ 0 ↔ w.toNat % 2 ^ n ≠ 0 := by
  rw [not_iff_not, ← BitVec.toNat_inj, BitVec.toNat_and, hm, Nat.and_two_pow_sub_one_eq_mod]
  rfl

/-- The RSV bits of each format are the low 4, 16, 24 or 28 (R90). -/
theorem reserved_set (w : Word) (fmt : Format) : w &&& fmt.rsvMask ≠ 0 ↔
    w.toNat % 2 ^ (match fmt with | .B => 4 | .F => 16 | .L => 24 | .N => 28) ≠ 0 := by
  cases fmt <;> exact and_mask_ne_zero w _ rfl

/-- A FID names no field exactly from 11 on (R93). -/
theorem fieldOfBits_none (b : BitVec 4) : FieldId.ofBits b = none ↔ 11 ≤ b.toNat := by
  revert b
  decide

/-- The field that a FID names has that FID (R23). -/
theorem bits_of_ofBits : ∀ (b : BitVec 4) (fid : FieldId), FieldId.ofBits b = some fid → fid.bits = b := by decide

/-- The reserved opcodes (R91). -/
theorem opcodeOfBits_none (b : BitVec 4) : Opcode.ofBits b = none ↔ b.toNat = 0 ∨ b.toNat = 14 ∨ b.toNat = 15 := by
  revert b
  decide

/-- The opcode of each command (R90). -/
theorem opcodeOfBits_some (b : BitVec 4) (o : Opcode) : Opcode.ofBits b = some o ↔ b.toNat =
    (match o with
    | .bbRead => 1 | .bbWrite => 2 | .recLoad => 3 | .layout => 4 | .itemEnc => 5 | .itemDec => 6 | .rankEnc => 7
    | .rankDec => 8 | .recDecode => 9 | .recEncode => 10 | .recClear => 11 | .fieldRd => 12 | .fieldWr => 13) := by
  cases o <;> revert b <;> decide

end Sys2Proof
end

