-- ==== Sys2Proof/Laws/Fields.lean ====
section
/-!
SUPPORT. The laws of the field register file (10_state.md rules R23 and R24): elements of a grid, and of F by field id.
-/

namespace Sys2Proof.Machine

section Grids

variable {I J w : Nat}

theorem index_lt {i j : Nat} (hi : i < I) (hj : j < J) : J * i + j < I * J := by
  calc J * i + j < J * i + J := by omega
    _ = J * (i + 1) := by ring
    _ ≤ J * I := Nat.mul_le_mul_left J hi
    _ = I * J := Nat.mul_comm J I

theorem index_inj {i j i' j' : Nat} (hj : j < J) (hj' : j' < J) (e : J * i + j = J * i' + j') : i = i' ∧ j = j' := by
  have h1 : (J * i + j) / J = i := by rw [Nat.mul_add_div (by omega), Nat.div_eq_of_lt hj, Nat.add_zero]
  have h2 : (J * i' + j') / J = i' := by rw [Nat.mul_add_div (by omega), Nat.div_eq_of_lt hj', Nat.add_zero]
  have : i = i' := by rw [← h1, ← h2, e]
  subst this
  exact ⟨rfl, by omega⟩

theorem Grid.get_tabulate (e : Nat → Nat → BitVec w) {i j : Nat} (hi : i < I) (hj : j < J) :
    (Grid.tabulate e : Grid I J w).get i j = e i j := by
  have hk := index_lt hi hj
  have hd : (J * i + j) / J = i := by rw [Nat.mul_add_div (by omega), Nat.div_eq_of_lt hj, Nat.add_zero]
  have hm : (J * i + j) % J = j := by rw [Nat.mul_add_mod, Nat.mod_eq_of_lt hj]
  simp [Grid.get, Grid.tabulate, hk, hd, hm]

theorem Grid.get_put (g : Grid I J w) (v : BitVec w) {i j i' j' : Nat} (hi : i < I) (hj : j < J) (hj' : j' < J) :
    (g.put i j v).get i' j' = if i' = i ∧ j' = j then v else g.get i' j' := by
  have hk := index_lt hi hj
  unfold Grid.get Grid.put
  by_cases h : i' = i ∧ j' = j
  · rw [if_pos h, h.1, h.2, Vector.getElem?_setIfInBounds_self, if_pos hk]
    rfl
  · rw [if_neg h, Vector.getElem?_setIfInBounds_ne]
    intro e
    obtain ⟨h1, h2⟩ := index_inj hj hj' e
    exact h ⟨h1.symm, h2.symm⟩

theorem Grid.get_zero (i j : Nat) : Grid.get (Vector.replicate (I * J) 0 : Grid I J w) i j = 0 := by
  unfold Grid.get
  by_cases h : J * i + j < I * J
  · simp [h]
  · simp [h]

/-- Grids with equal elements are equal. -/
theorem Grid.ext_of_get {g g' : Grid I J w} (h : ∀ i < I, ∀ j < J, g.get i j = g'.get i j) : g = g' := by
  refine Vector.ext fun k hk => ?_
  have hJ : 0 < J := by
    rcases Nat.eq_zero_or_pos J with h0 | h0
    · subst h0; omega
    · exact h0
  have hi : k / J < I := Nat.div_lt_of_lt_mul (by rw [Nat.mul_comm]; exact hk)
  have := h (k / J) hi (k % J) (Nat.mod_lt _ hJ)
  unfold Grid.get at this
  rw [Nat.div_add_mod] at this
  simpa [hk] using this

end Grids

section Dims

/-- The dims of R211 as numbers. -/
theorem dims_eq (fid : FieldId) : fid.dims =
    match fid with
    | .version => (1, 1)
    | .unitItems => (8, 8)
    | .boardUnitIDs => (8, 8)
    | .selectedTalents => (16, 2)
    | .unitRanks => (8, 8)
    | .benchUnitItems => (8, 1)
    | .benchedUnitIDs => (8, 1)
    | .benchUnitRanks => (8, 1)
    | .underlordIDs => (2, 1)
    | .underlordRanks => (2, 1)
    | .unequippedItems => (8, 2) := by
  cases fid <;> rfl

/-- An index that passes no dim is below both (R211). -/
theorem index_lt_dims {fid : FieldId} {i j : Nat} (h : ¬indexOutOfRange fid i j) : i < fid.dims.1 ∧ j < fid.dims.2 := by
  unfold indexOutOfRange at h
  omega

end Dims

section Files

/-- Every element of a cleared F is 0 (R205). -/
theorem Fields.read_zero (fid : FieldId) (i j : Nat) : Fields.zero.read fid i j = 0 := by
  cases fid <;> simp only [Fields.read, Fields.zero] <;> rw [Grid.get_zero] <;> rfl

/-- An element is below 2^width of its field (R24, R212). -/
theorem Fields.read_lt (f : Fields) (fid : FieldId) (i j : Nat) : f.read fid i j < 2 ^ fid.width := by
  cases fid <;> exact BitVec.isLt _

/-- The element written is the element read, and every other element keeps its value (R209). -/
theorem Fields.read_write (f : Fields) (fid fid' : FieldId) {i j i' j' v : Nat} (h : ¬indexOutOfRange fid i j)
    (h' : ¬indexOutOfRange fid' i' j') (hv : v < 2 ^ fid.width) :
    (f.write fid i j v).read fid' i' j' = if fid' = fid ∧ i' = i ∧ j' = j then v else f.read fid' i' j' := by
  have hi : i < fid.dims.1 := by unfold indexOutOfRange at h; omega
  have hj : j < fid.dims.2 := by unfold indexOutOfRange at h; omega
  have hj' : j' < fid'.dims.2 := by unfold indexOutOfRange at h'; omega
  by_cases e : fid' = fid
  · subst e
    cases fid' <;> simp only [Fields.read, Fields.write, FieldId.dims, FieldId.width, true_and] at hi hj hj' hv ⊢ <;>
      rw [Grid.get_put _ _ hi hj hj'] <;> split <;> first | rfl | exact (BitVec.toNat_ofNat _ _).trans (Nat.mod_eq_of_lt hv)
  · rw [if_neg (fun c => e c.1)]
    cases fid <;> cases fid' <;> first | exact absurd rfl e | rfl

/-- Register files with equal elements are equal. -/
theorem Fields.ext_of_read {f f' : Fields}
    (h : ∀ fid i j, ¬indexOutOfRange fid i j → f.read fid i j = f'.read fid i j) : f = f' := by
  have key : ∀ fid : FieldId, ∀ i < fid.dims.1, ∀ j < fid.dims.2, f.read fid i j = f'.read fid i j :=
    fun fid i hi j hj => h fid i j (by unfold indexOutOfRange; omega)
  have h0 := Grid.ext_of_get fun i hi j hj => BitVec.eq_of_toNat_eq (key .version i hi j hj)
  have h1 := Grid.ext_of_get fun i hi j hj => BitVec.eq_of_toNat_eq (key .unitItems i hi j hj)
  have h2 := Grid.ext_of_get fun i hi j hj => BitVec.eq_of_toNat_eq (key .boardUnitIDs i hi j hj)
  have h3 := Grid.ext_of_get fun i hi j hj => BitVec.eq_of_toNat_eq (key .selectedTalents i hi j hj)
  have h4 := Grid.ext_of_get fun i hi j hj => BitVec.eq_of_toNat_eq (key .unitRanks i hi j hj)
  have h5 := Grid.ext_of_get fun i hi j hj => BitVec.eq_of_toNat_eq (key .benchUnitItems i hi j hj)
  have h6 := Grid.ext_of_get fun i hi j hj => BitVec.eq_of_toNat_eq (key .benchedUnitIDs i hi j hj)
  have h7 := Grid.ext_of_get fun i hi j hj => BitVec.eq_of_toNat_eq (key .benchUnitRanks i hi j hj)
  have h8 := Grid.ext_of_get fun i hi j hj => BitVec.eq_of_toNat_eq (key .underlordIDs i hi j hj)
  have h9 := Grid.ext_of_get fun i hi j hj => BitVec.eq_of_toNat_eq (key .underlordRanks i hi j hj)
  have h10 := Grid.ext_of_get fun i hi j hj => BitVec.eq_of_toNat_eq (key .unequippedItems i hi j hj)
  cases f
  cases f'
  simp only at h0 h1 h2 h3 h4 h5 h6 h7 h8 h9 h10
  subst h0 h1 h2 h3 h4 h5 h6 h7 h8 h9 h10
  rfl

end Files

end Sys2Proof.Machine
end

