-- ==== Sys2Proof/Laws/Memory.lean ====
section
/-!
SUPPORT. The laws of BUF: its canonical form, bytes read and written, bits, and bit ranges (20_memory.md, 40_bitbuffer.md).
-/

namespace Sys2Proof.Machine

open Config

section Bytes

/-- A listed address below the first possible one reads as 0. -/
theorem Memory.read_below {m : Memory} {low a : Nat} (h : m.risingFrom low = true) (ha : a < low) :
    m.read a = 0 := by
  induction m generalizing low with
  | nil => rfl
  | cons c rest ih =>
    obtain ⟨k, x⟩ := c
    simp only [Memory.risingFrom, Bool.and_eq_true, decide_eq_true_eq] at h
    simp only [Memory.read]
    rw [if_neg (by omega)]
    exact ih h.2 (by omega)

theorem Memory.risingFrom_mono {m : Memory} {low low' : Nat} (hl : low' ≤ low)
    (h : m.risingFrom low = true) : m.risingFrom low' = true := by
  cases m with
  | nil => rfl
  | cons c rest =>
    obtain ⟨k, x⟩ := c
    simp only [Memory.risingFrom, Bool.and_eq_true, decide_eq_true_eq] at h ⊢
    exact ⟨by omega, h.2⟩

/-- The byte written is the byte read. -/
theorem Memory.read_write_self {m : Memory} {low : Nat} (h : m.risingFrom low = true) (a : Nat) (b : Byte) :
    (m.write a b).read a = b := by
  induction m generalizing low with
  | nil => by_cases hb : b = 0#8 <;> simp [Memory.write, Memory.read, hb]
  | cons c rest ih =>
    obtain ⟨k, x⟩ := c
    simp only [Memory.risingFrom, Bool.and_eq_true, decide_eq_true_eq] at h
    simp only [Memory.write]
    split
    · split
      · rename_i hk hb
        simp only [Memory.read]
        rw [if_neg (by omega), hb]
        exact Memory.read_below h.2 (by omega)
      · simp [Memory.read]
    · split
      · rename_i hk
        subst hk
        split
        · rename_i hb
          rw [hb]
          exact Memory.read_below h.2 (by omega)
        · simp [Memory.read]
      · simp only [Memory.read]
        rw [if_neg (by omega)]
        exact ih h.2

/-- A write leaves every other byte alone. -/
theorem Memory.read_write_other (m : Memory) {a a' : Nat} (b : Byte) (h : a' ≠ a) :
    (m.write a b).read a' = m.read a' := by
  induction m with
  | nil => by_cases hb : b = 0#8 <;> simp [Memory.write, Memory.read, hb, Ne.symm h]
  | cons c rest ih =>
    obtain ⟨k, x⟩ := c
    simp only [Memory.write]
    split
    · split
      · rfl
      · simp [Memory.read, Ne.symm h]
    · split
      · rename_i hk
        subst hk
        split <;> simp [Memory.read, Ne.symm h]
      · simp [Memory.read, ih]

theorem Memory.risingFrom_write {m : Memory} {low : Nat} (h : m.risingFrom low = true) {a : Nat}
    (ha : low ≤ a) (b : Byte) : (m.write a b).risingFrom low = true := by
  induction m generalizing low with
  | nil => by_cases hb : b = 0#8 <;> simp [Memory.write, Memory.risingFrom, hb, ha]
  | cons c rest ih =>
    obtain ⟨k, x⟩ := c
    simp only [Memory.risingFrom, Bool.and_eq_true, decide_eq_true_eq] at h
    simp only [Memory.write]
    split
    · split
      · simpa [Memory.risingFrom] using h
      · simp only [Memory.risingFrom, Bool.and_eq_true, decide_eq_true_eq]
        exact ⟨ha, by omega, h.2⟩
    · split
      · rename_i hk
        subst hk
        split
        · exact Memory.risingFrom_mono (by omega) h.2
        · simp only [Memory.risingFrom, Bool.and_eq_true, decide_eq_true_eq]
          exact ⟨ha, h.2⟩
      · simp only [Memory.risingFrom, Bool.and_eq_true, decide_eq_true_eq]
        exact ⟨h.1, ih h.2 (by omega)⟩

theorem Memory.cells_write {m : Memory} (h : ∀ c ∈ m, c.1 < nbytes ∧ c.2 ≠ 0) {a : Nat}
    (ha : a < nbytes) (b : Byte) : ∀ c ∈ m.write a b, c.1 < nbytes ∧ c.2 ≠ 0 := by
  induction m with
  | nil => by_cases hb : b = 0#8 <;> simp [Memory.write, hb, ha]
  | cons c rest ih =>
    obtain ⟨k, x⟩ := c
    have hc := h (k, x) (by simp)
    have hr : ∀ c ∈ rest, c.1 < nbytes ∧ c.2 ≠ 0 := fun c hc => h c (List.mem_cons_of_mem _ hc)
    simp only [Memory.write]
    split
    · split
      · exact h
      · rintro c (_ | ⟨_, hm⟩)
        · exact ⟨ha, ‹_›⟩
        · exact h c hm
    · split
      · split
        · exact hr
        · rintro c (_ | ⟨_, hm⟩)
          · exact ⟨ha, ‹_›⟩
          · exact hr c hm
      · rintro c (_ | ⟨_, hm⟩)
        · exact hc
        · exact ih hr c hm

theorem Memory.wf_iff {m : Memory} :
    m.wf = true ↔ m.risingFrom 0 = true ∧ ∀ c ∈ m, c.1 < nbytes ∧ c.2 ≠ 0 := by
  simp only [Memory.wf, Bool.and_eq_true, List.all_eq_true, decide_eq_true_eq]

theorem Memory.wf_nil : Memory.wf [] = true := rfl

/-- A byte written within the record keeps the canonical form. -/
theorem Memory.wf_write {m : Memory} (h : m.wf = true) {a : Nat} (ha : a < nbytes) (b : Byte) :
    (m.write a b).wf = true := by
  rw [Memory.wf_iff] at h ⊢
  exact ⟨Memory.risingFrom_write h.1 (Nat.zero_le _) b, Memory.cells_write h.2 ha b⟩

theorem Memory.wf_rising {m : Memory} (h : m.wf = true) : m.risingFrom 0 = true := (Memory.wf_iff.mp h).1

/-- One write, read anywhere. -/
theorem Memory.read_write {m : Memory} (h : m.wf = true) (a a' : Nat) (b : Byte) :
    (m.write a b).read a' = if a' = a then b else m.read a' := by
  split
  · rename_i e; rw [e]; exact Memory.read_write_self (Memory.wf_rising h) a b
  · exact Memory.read_write_other m b ‹_›

/-- Canonical memories that read the same everywhere are the same data. -/
theorem Memory.ext_of_read {m m' : Memory} {low : Nat} (h : m.risingFrom low = true)
    (h' : m'.risingFrom low = true) (hc : ∀ c ∈ m, c.2 ≠ 0) (hc' : ∀ c ∈ m', c.2 ≠ 0)
    (hr : ∀ a, m.read a = m'.read a) : m = m' := by
  induction m generalizing m' low with
  | nil =>
    cases m' with
    | nil => rfl
    | cons c rest =>
      have := hr c.1
      simp only [Memory.read, if_pos] at this
      exact absurd this.symm (hc' c (by simp))
  | cons c rest ih =>
    cases m' with
    | nil =>
      have := hr c.1
      simp only [Memory.read, if_pos] at this
      exact absurd this (hc c (by simp))
    | cons c' rest' =>
      obtain ⟨k, x⟩ := c
      obtain ⟨k', x'⟩ := c'
      simp only [Memory.risingFrom, Bool.and_eq_true, decide_eq_true_eq] at h h'
      have hx : x ≠ 0 := hc (k, x) (by simp)
      have hx' : x' ≠ 0 := hc' (k', x') (by simp)
      have hk : k = k' := by
        rcases Nat.lt_trichotomy k k' with hlt | heq | hgt
        · have := hr k
          simp only [Memory.read, if_pos] at this
          rw [if_neg (by omega), Memory.read_below h'.2 (by omega)] at this
          exact absurd this hx
        · exact heq
        · have := hr k'
          simp only [Memory.read, if_pos] at this
          rw [if_neg (by omega), Memory.read_below h.2 (by omega)] at this
          exact absurd this.symm hx'
      subst hk
      have hxx : x = x' := by simpa [Memory.read] using hr k
      subst hxx
      have : rest = rest' := by
        refine ih h.2 h'.2 (fun c hm => hc c (List.mem_cons_of_mem _ hm))
          (fun c hm => hc' c (List.mem_cons_of_mem _ hm)) (fun a => ?_)
        by_cases ha : k = a
        · subst ha
          rw [Memory.read_below h.2 (by omega), Memory.read_below h'.2 (by omega)]
        · simpa [Memory.read, ha] using hr a
      rw [this]

/-- A byte past the record reads as 0. -/
theorem Memory.read_past {m : Memory} (h : m.wf = true) {a : Nat} (ha : nbytes ≤ a) : m.read a = 0 := by
  have hc := (Memory.wf_iff.mp h).2
  clear h
  induction m with
  | nil => rfl
  | cons c rest ih =>
    have := (hc c (by simp)).1
    rw [show Memory.read (c :: rest) a = if c.1 = a then c.2 else Memory.read rest a from rfl, if_neg (by omega)]
    exact ih fun c hm => hc c (List.mem_cons_of_mem _ hm)

end Bytes

section PutBytes

theorem Memory.wf_putBytes {m : Memory} (h : m.wf = true) {a : Nat} {d : List Byte}
    (ha : a + d.length ≤ nbytes) : (m.putBytes a d).wf = true := by
  induction d generalizing m a with
  | nil => exact h
  | cons b rest ih =>
    simp only [List.length_cons] at ha
    exact ih (Memory.wf_write h (by omega) b) (by omega)

theorem Memory.read_putBytes_other (m : Memory) {a a' : Nat} (d : List Byte)
    (h : a' < a ∨ a + d.length ≤ a') : (m.putBytes a d).read a' = m.read a' := by
  induction d generalizing m a with
  | nil => rfl
  | cons b rest ih =>
    simp only [List.length_cons] at h
    simp only [Memory.putBytes]
    rw [ih _ (by omega), Memory.read_write_other m b (by omega)]

theorem Memory.read_putBytes_self {m : Memory} (hm : m.risingFrom 0 = true) {a k : Nat} {d : List Byte}
    (h : k < d.length) : (m.putBytes a d).read (a + k) = d[k] := by
  induction d generalizing m a k with
  | nil => simp at h
  | cons b rest ih =>
    simp only [Memory.putBytes]
    cases k with
    | zero =>
      rw [Memory.read_putBytes_other _ _ (by omega)]
      simpa using Memory.read_write_self hm a b
    | succ k =>
      simp only [List.length_cons] at h
      rw [show a + (k + 1) = a + 1 + k by omega]
      simpa using ih (Memory.risingFrom_write hm (Nat.zero_le _) b) (by omega)

end PutBytes

section Bits

theorem bitInByte_lt (p : Nat) : bitInByte p < 8 := by unfold bitInByte; omega

theorem withBit_getLsbD (x : Byte) {k j : Nat} (hk : k < 8) (hj : j < 8) (b : Bool) :
    (withBit x k b).getLsbD j = if j = k then b else x.getLsbD j := by
  unfold withBit
  have : (1#8 <<< k).getLsbD j = decide (j = k) := by
    simp only [BitVec.getLsbD_shiftLeft, BitVec.getLsbD_one]
    by_cases h : j = k <;> by_cases h' : j < k <;> (simp_all; try omega)
  by_cases h : j = k
  · cases b <;> simp [h, hk]
  · cases b <;> simp only [Bool.false_eq_true, if_false, if_true, BitVec.getLsbD_or, BitVec.getLsbD_and,
      BitVec.getLsbD_not, this, h, hj, decide_false, decide_true, Bool.or_false, Bool.not_false, Bool.and_true]

/-- The bit written is the bit read, and every other bit keeps its value (R113). -/
theorem Memory.bit_setBit {m : Memory} (h : m.wf = true) (p q : Nat) (b : Bool) :
    (m.setBit p b).bit q = if q = p then b else m.bit q := by
  unfold Memory.setBit Memory.bit
  rw [Memory.read_write h]
  by_cases hb : q / 8 = p / 8
  · rw [if_pos hb, withBit_getLsbD _ (bitInByte_lt p) (bitInByte_lt q), hb]
    by_cases hq : q = p
    · simp [hq]
    · rw [if_neg hq, if_neg]
      unfold bitInByte; omega
  · rw [if_neg hb, if_neg (by rintro rfl; exact hb rfl)]

theorem Memory.read_setBit_other (m : Memory) {p a : Nat} (b : Bool) (h : a ≠ p / 8) :
    (m.setBit p b).read a = m.read a := Memory.read_write_other m _ h

theorem Memory.wf_setBit {m : Memory} (h : m.wf = true) {p : Nat} (hp : p < nbits) (b : Bool) :
    (m.setBit p b).wf = true :=
  Memory.wf_write h (by rw [nbits_eq] at hp; rw [nbytes_eq]; omega) _

/-- Bytes that agree on their 8 positions agree (R11). -/
theorem Memory.read_eq_of_bits {m m' : Memory} {a : Nat} (h : ∀ i < 8, m.bit (8 * a + i) = m'.bit (8 * a + i)) :
    m.read a = m'.read a := by
  refine BitVec.eq_of_getLsbD_eq fun i hi => ?_
  have := h (7 - i) (by omega)
  unfold Memory.bit bitInByte at this
  rwa [show (8 * a + (7 - i)) / 8 = a by omega, show 7 - (8 * a + (7 - i)) % 8 = i by omega] at this

theorem Memory.wf_writeBits {m : Memory} (h : m.wf = true) {off n : Nat} (hb : off + n ≤ nbits) (v : Nat) :
    (m.writeBits off n v).wf = true := by
  induction n generalizing v with
  | zero => exact h
  | succ n ih => exact Memory.wf_setBit (ih (by omega) _) (by omega) _

/-- BBWrite: position off + i takes v[len-1-i], and bits outside the range keep their values (R113). -/
theorem Memory.bit_writeBits {m : Memory} (h : m.wf = true) {off n : Nat} (hb : off + n ≤ nbits) (v p : Nat) :
    (m.writeBits off n v).bit p =
      if off ≤ p ∧ p < off + n then v.testBit (n - 1 - (p - off)) else m.bit p := by
  induction n generalizing v with
  | zero => simp [Memory.writeBits]
  | succ n ih =>
    rw [Memory.writeBits, Memory.bit_setBit (Memory.wf_writeBits h (by omega) _), ih (by omega)]
    by_cases hp : p = off + n
    · subst hp
      simp
    · rw [if_neg hp]
      by_cases hr : off ≤ p ∧ p < off + n
      · rw [if_pos hr, if_pos (by omega), ← Nat.testBit_succ]
        congr 1
        omega
      · rw [if_neg hr, if_neg (by omega)]

/-- BBRead: bit len-1-i of the value is BUF<off+i> (R110). -/
theorem Memory.testBit_readBits (m : Memory) (off n k : Nat) :
    (m.readBits off n).testBit k = if k < n then m.bit (off + (n - 1 - k)) else false := by
  induction n generalizing k with
  | zero => simp [Memory.readBits]
  | succ n ih =>
    rw [Memory.readBits]
    cases k with
    | zero =>
      cases hb : m.bit (off + n) <;> simp [hb, Nat.testBit_zero]
    | succ k =>
      rw [Nat.testBit_succ, show (2 * m.readBits off n + (m.bit (off + n)).toNat) / 2 = m.readBits off n by
        cases m.bit (off + n) <;> simp [Nat.mul_add_div], ih]
      by_cases hk : k < n
      · rw [if_pos hk, if_pos (by omega)]
        congr 2
        omega
      · rw [if_neg hk, if_neg (by omega)]

/-- BBRead never returns 2^len or more (R112). -/
theorem Memory.readBits_lt (m : Memory) (off n : Nat) : m.readBits off n < 2 ^ n := by
  induction n with
  | zero => simp [Memory.readBits]
  | succ n ih =>
    have := Bool.toNat_le (m.bit (off + n))
    rw [Memory.readBits, Nat.pow_succ]
    omega

/-- BBRead depends on the bits of its range alone. -/
theorem Memory.readBits_congr {m m' : Memory} {off n : Nat} (h : ∀ p, off ≤ p → p < off + n → m.bit p = m'.bit p) :
    m.readBits off n = m'.readBits off n := by
  induction n with
  | zero => rfl
  | succ n ih =>
    rw [Memory.readBits, Memory.readBits, ih fun p h1 h2 => h p h1 (by omega), h (off + n) (by omega) (by omega)]

end Bits

end Sys2Proof.Machine
end

