-- ==== Sys2Proof/Laws/Operands.lean ====
section
/-!
SUPPORT. The laws of the operand forms: big-endian integers (00_scope.md rule R12), the data port (30_encoding.md rule R80),
rank lanes (R89), the index pairs of a grid, and byte accesses as bit ranges (00_scope.md rule R13, 20_memory.md rule R51).
-/

namespace Sys2Proof.Machine

open Config

section Bytes

@[simp] theorem be_nil : be [] = 0 := rfl

theorem be_append_one (d : List Byte) (b : Byte) : be (d ++ [b]) = be d * 256 + b.toNat := by
  simp [be, List.foldl_append]

theorem be_lt (d : List Byte) : be d < 2 ^ (8 * d.length) := by
  induction d using List.reverseRecOn with
  | nil => simp
  | append_singleton d b ih =>
    rw [be_append_one, List.length_append, List.length_singleton, show 8 * (d.length + 1) = 8 * d.length + 8 by omega,
      Nat.pow_add]
    have := b.isLt
    omega

@[simp] theorem bytesOf_length (n v : Nat) : (bytesOf n v).length = n := by
  induction n generalizing v with
  | zero => rfl
  | succ n ih => simp [bytesOf, ih]

/-- bytes_n(v) stands for v (R12). -/
theorem be_bytesOf {n v : Nat} (h : v < 2 ^ (8 * n)) : be (bytesOf n v) = v := by
  induction n generalizing v with
  | zero => simp at h; simp [bytesOf, h]
  | succ n ih =>
    rw [show 8 * (n + 1) = 8 * n + 8 by omega, Nat.pow_add] at h
    rw [bytesOf, be_append_one, ih (by omega), BitVec.toNat_ofNat]
    omega

/-- bytes_n is the inverse of BE (R12). -/
theorem bytesOf_be (d : List Byte) : bytesOf d.length (be d) = d := by
  induction d using List.reverseRecOn with
  | nil => rfl
  | append_singleton d b ih =>
    have := b.isLt
    rw [List.length_append, List.length_singleton, bytesOf, be_append_one,
      show (be d * 256 + b.toNat) / 256 = be d by omega, ih]
    congr 2
    refine BitVec.eq_of_toNat_eq ?_
    rw [BitVec.toNat_ofNat]
    omega

end Bytes

section Port

/-- A value that fits the port is carried whole (R80). -/
theorem port_toNat {v : Nat} (h : v < 2 ^ dataWidth) : (port v).toNat = v := by
  rw [port, BitVec.toNat_ofNat, Nat.mod_eq_of_lt h]

/-- A value of at most 3392 bits fits the port (R80). -/
theorem port_toNat_of_lt {v n : Nat} (h : v < 2 ^ n) (hn : n ≤ dataWidth) : (port v).toNat = v :=
  port_toNat (Nat.lt_of_lt_of_le h (Nat.pow_le_pow_right (by omega) hn))

theorem port_toNat_self (v : Data) : port v.toNat = v := by
  refine BitVec.eq_of_toNat_eq (port_toNat v.isLt)

theorem port_inj {v v' : Nat} (h : v < 2 ^ dataWidth) (h' : v' < 2 ^ dataWidth) (e : port v = port v') : v = v' := by
  rw [← port_toNat h, ← port_toNat h', e]

end Port

section Lanes

/-- Lane j of a rank vector as an integer (R89). -/
theorem lane_toNat (v : Data) (j : Nat) : (lane v j).toNat = v.toNat / 2 ^ (8 * j) % 256 := by
  simp [lane, BitVec.extractLsb'_toNat, Nat.shiftRight_eq_div_pow]

/-- The sum of the first `n` lanes fits in their bits, and holds each of them in its place. -/
theorem sumLanes (r : Nat → Byte) (n : Nat) :
    (List.range n).foldl (fun v j => v + (r j).toNat * 2 ^ (8 * j)) 0 < 2 ^ (8 * n) ∧
      ∀ j < n, (List.range n).foldl (fun v j => v + (r j).toNat * 2 ^ (8 * j)) 0 / 2 ^ (8 * j) % 256 = (r j).toNat := by
  induction n with
  | zero => simp
  | succ n ih =>
    obtain ⟨hlt, hl⟩ := ih
    simp only [List.range_succ, List.foldl_append, List.foldl_cons, List.foldl_nil]
    generalize (List.range n).foldl (fun v j => v + (r j).toNat * 2 ^ (8 * j)) 0 = x at hlt hl
    have hr := (r n).isLt
    refine ⟨?_, fun j hj => ?_⟩
    · rw [show 8 * (n + 1) = 8 * n + 8 by omega, Nat.pow_add]
      calc x + (r n).toNat * 2 ^ (8 * n) < 2 ^ (8 * n) + (r n).toNat * 2 ^ (8 * n) := by omega
        _ = ((r n).toNat + 1) * 2 ^ (8 * n) := by ring
        _ ≤ 2 ^ 8 * 2 ^ (8 * n) := Nat.mul_le_mul_right _ (by omega)
        _ = 2 ^ (8 * n) * 2 ^ 8 := Nat.mul_comm _ _
    · by_cases e : j = n
      · subst e
        rw [Nat.add_mul_div_right _ _ (Nat.two_pow_pos _), Nat.div_eq_of_lt hlt, Nat.zero_add, Nat.mod_eq_of_lt hr]
      · have hjn : j < n := by omega
        rw [← hl j hjn, show 8 * n = 8 * (n - j - 1) + 8 + 8 * j by omega, Nat.pow_add, Nat.pow_add, ← Nat.mul_assoc,
          Nat.add_mul_div_right _ _ (Nat.two_pow_pos _), ← Nat.mul_assoc]
        omega

theorem ofLanes_lt (r : Nat → Byte) : ofLanes r < 2 ^ 64 := (sumLanes r 8).1

/-- Lane j of the rank vector of r is r[j] (R89). -/
theorem ofLanes_lane (r : Nat → Byte) {j : Nat} (h : j < 8) : ofLanes r / 2 ^ (8 * j) % 256 = (r j).toNat :=
  (sumLanes r 8).2 j h

theorem lane_port_ofLanes (r : Nat → Byte) {j : Nat} (h : j < 8) : lane (port (ofLanes r)) j = r j := by
  refine BitVec.eq_of_toNat_eq ?_
  rw [lane_toNat, port_toNat_of_lt (ofLanes_lt r) (by rw [dataWidth_eq]; omega), ofLanes_lane r h]

end Lanes

section Pairs

theorem mem_pairs {I J a b : Nat} : (a, b) ∈ pairs I J ↔ a < I ∧ b < J := by
  simp [pairs]

end Pairs

section ByteAccess

@[simp] theorem Memory.bytes_length (m : Memory) (a n : Nat) : (m.bytes a n).length = n := by simp [Memory.bytes]

theorem Memory.bytes_succ (m : Memory) (a n : Nat) : m.bytes a (n + 1) = m.bytes a n ++ [m.read (a + n)] := by
  simp [Memory.bytes, List.range_succ]

theorem Memory.bytes_congr {m m' : Memory} {a n : Nat} (h : ∀ k < n, m.read (a + k) = m'.read (a + k)) :
    m.bytes a n = m'.bytes a n := by
  simp only [Memory.bytes]
  exact List.map_congr_left fun k hk => h k (List.mem_range.mp hk)

theorem Memory.readBits_add (m : Memory) (off n k : Nat) :
    m.readBits off (n + k) = m.readBits off n * 2 ^ k + m.readBits (off + n) k := by
  induction k with
  | zero => simp [Memory.readBits]
  | succ k ih =>
    rw [← Nat.add_assoc, Memory.readBits, ih, Memory.readBits, Nat.pow_succ, Nat.add_assoc off n k]
    ring

/-- Byte(a) = MemRead(a, 1) = BBRead(8a, 8) (R13). -/
theorem Memory.readBits_byte (m : Memory) (a : Nat) : m.readBits (8 * a) 8 = (m.read a).toNat := by
  refine Nat.eq_of_testBit_eq fun k => ?_
  rw [Memory.testBit_readBits]
  split
  · rename_i hk
    unfold Memory.bit bitInByte
    rw [show (8 * a + (8 - 1 - k)) / 8 = a by omega, show 7 - (8 * a + (8 - 1 - k)) % 8 = k by omega]
    rfl
  · rename_i hk
    exact (BitVec.getLsbD_of_ge (m.read a) k (by omega)).symm

/-- MemRead(a, n) = BBRead(8a, 8n) returns the bytes big-endian (R51). -/
theorem Memory.readBits_bytes (m : Memory) (a n : Nat) : m.readBits (8 * a) (8 * n) = be (m.bytes a n) := by
  induction n with
  | zero => rfl
  | succ n ih =>
    rw [show 8 * (n + 1) = 8 * n + 8 by omega, Memory.readBits_add, ih, Memory.bytes_succ, be_append_one,
      show 8 * a + 8 * n = 8 * (a + n) by omega, Memory.readBits_byte]
    rfl

/-- MemWrite(a, 1, b) = BBWrite(8a, 8, b) (R13). -/
theorem Memory.writeBits_byte {m : Memory} (h : m.wf = true) {a : Nat} (ha : a < nbytes) (b : Byte) :
    m.writeBits (8 * a) 8 b.toNat = m.write a b := by
  have hb : 8 * a + 8 ≤ nbits := by rw [nbits_eq_bytes]; omega
  have h1 := Memory.wf_iff.mp (Memory.wf_writeBits h hb b.toNat)
  have h2 := Memory.wf_iff.mp (Memory.wf_write h ha b)
  refine Memory.ext_of_read h1.1 h2.1 (fun c hc => (h1.2 c hc).2) (fun c hc => (h2.2 c hc).2) fun a' => ?_
  refine Memory.read_eq_of_bits fun i hi => ?_
  rw [Memory.bit_writeBits h hb]
  unfold Memory.bit
  rw [Memory.read_write h, show (8 * a' + i) / 8 = a' by omega]
  by_cases e : a' = a
  · subst e
    rw [if_pos (by omega), if_pos rfl, bitInByte, show 8 - 1 - (8 * a' + i - 8 * a') = 7 - i by omega,
      show 7 - (8 * a' + i) % 8 = 7 - i by omega]
    rfl
  · rw [if_neg (by omega), if_neg e]

end ByteAccess

end Sys2Proof.Machine
end

