-- ==== Sys2Proof/Laws/Item.lean ====
section
/-!
SUPPORT. The laws of the item-slot codec (42_item_slot.md rules R151 to R156).
-/

namespace Sys2Proof.Machine

@[simp] theorem itemEncode_length (id : BitVec 16) : (itemEncode id).length = 3 := rfl

theorem low_toNat (id : BitVec 16) : (id.extractLsb' 0 8).toNat = id.toNat % 256 := by
  simp [BitVec.extractLsb'_toNat]

theorem high_toNat (id : BitVec 16) : (id.extractLsb' 8 8).toNat = id.toNat / 256 := by
  have := id.isLt
  simp only [BitVec.extractLsb'_toNat, Nat.shiftRight_eq_div_pow]
  omega

/-- The slot value of an id (R152). -/
theorem be_itemEncode (id : BitVec 16) : be (itemEncode id) = id.toNat % 256 * 2 ^ 16 + id.toNat / 256 * 2 ^ 8 := by
  simp only [be, itemEncode, List.foldl_cons, List.foldl_nil, low_toNat, high_toNat]
  have : (0x00 : Byte).toNat = 0 := rfl
  omega

/-- The id of a slot: s1 * 256 + s0 (R153). -/
theorem itemDecode_toNat (s0 s1 s2 : Byte) : (itemDecode [s0, s1, s2]).toNat = s1.toNat * 256 + s0.toNat := by
  have := s0.isLt
  simp only [itemDecode, List.getD_cons_succ, List.getD_cons_zero, BitVec.toNat_append]
  rw [← Nat.shiftLeft_add_eq_or_of_lt this, Nat.shiftLeft_eq]

/-- Decode of encode is the identity on ids (R156). -/
theorem itemDecode_itemEncode (id : BitVec 16) : itemDecode (itemEncode id) = id := by
  refine BitVec.eq_of_toNat_eq ?_
  rw [itemEncode, itemDecode_toNat, low_toNat, high_toNat]
  omega

/-- Encode of decode keeps a slot but for its reserved byte (R156). -/
theorem itemEncode_itemDecode (s0 s1 s2 : Byte) : itemEncode (itemDecode [s0, s1, s2]) = [s0, s1, 0] := by
  have h0 := s0.isLt
  have h1 := s1.isLt
  have hl : (itemDecode [s0, s1, s2]).extractLsb' 0 8 = s0 := by
    refine BitVec.eq_of_toNat_eq ?_
    rw [low_toNat, itemDecode_toNat]
    omega
  have hh : (itemDecode [s0, s1, s2]).extractLsb' 8 8 = s1 := by
    refine BitVec.eq_of_toNat_eq ?_
    rw [high_toNat, itemDecode_toNat]
    omega
  rw [itemEncode, hl, hh]

end Sys2Proof.Machine
end

