-- ==== Sys2Proof/Laws/Rank.lean ====
section
/-!
SUPPORT. The laws of the rank packer (43_rank_packer.md rules R171 to R180).
-/

namespace Sys2Proof.Machine

@[simp] theorem rankEncode_length (r : Nat → Byte) : (rankEncode r).length = 4 := by simp [rankEncode]

/-- A test mask selects one bit of a rank (R170). -/
theorem mask_test (x : Byte) {k : Nat} (hk : k < 4) : x &&& rankMask k ≠ 0 ↔ x.getLsbD k = true := by
  have h : ∀ k < 4, ∀ x : Byte, x &&& rankMask k ≠ 0 ↔ x.getLsbD k = true := by decide +kernel
  exact h k hk x

/-- Folding the ranks in sets exactly the bits named. -/
theorem accumulate_bit (r : Nat → Byte) (l : List (Nat × Nat)) (hl : ∀ p ∈ l, p.2 < 4) (acc : Word) {n : Nat}
    (hn : n < 32) :
    (l.foldl (fun acc p => if r p.1 &&& rankMask p.2 ≠ 0 then acc ||| 1#32 <<< (4 * p.1 + p.2) else acc) acc).getLsbD n =
      (acc.getLsbD n || l.any fun p => (4 * p.1 + p.2 == n) && (r p.1).getLsbD p.2) := by
  induction l generalizing acc with
  | nil => simp
  | cons p l ih =>
    have hp := hl p (by simp)
    rw [List.foldl_cons, ih fun q hq => hl q (List.mem_cons_of_mem _ hq), List.any_cons, ← Bool.or_assoc]
    congr 1
    by_cases hb : (r p.1).getLsbD p.2 = true
    · rw [if_pos ((mask_test _ hp).mpr hb), BitVec.getLsbD_or, hb, Bool.and_true]
      congr 1
      rw [BitVec.getLsbD_shiftLeft, BitVec.getLsbD_one]
      by_cases e : 4 * p.1 + p.2 = n
      · simp [e, hn]
      · by_cases h : n < 4 * p.1 + p.2
        · simp [e, h]
        · have : n - (4 * p.1 + p.2) ≠ 0 := by omega
          simp [e, hn, h, this]
    · rw [if_neg fun c => hb ((mask_test _ hp).mp c)]
      simp [hb]

/-- Nibble j of the accumulator is the low nibble of rank j (R171). -/
theorem rankAccumulator_bit (r : Nat → Byte) {n : Nat} (hn : n < 32) :
    (rankAccumulator r).getLsbD n = (r (n / 4)).getLsbD (n % 4) := by
  rw [rankAccumulator, accumulate_bit r _ (fun p hp => (mem_pairs.mp (show (p.1, p.2) ∈ pairs 8 4 from hp)).2) _ hn]
  simp only [BitVec.ofNat_eq_ofNat, BitVec.getLsbD_zero, Bool.false_or]
  rw [Bool.eq_iff_iff, List.any_eq_true]
  constructor
  · rintro ⟨⟨j, k⟩, hp, hb⟩
    have hk := (mem_pairs.mp hp).2
    simp only [Bool.and_eq_true, beq_iff_eq] at hb
    rw [show n / 4 = j by omega, show n % 4 = k by omega]
    exact hb.2
  · intro h
    refine ⟨(n / 4, n % 4), mem_pairs.mpr ⟨by omega, by omega⟩, ?_⟩
    simp only [h, Bool.and_true, beq_iff_eq]
    omega

/-- A decoded rank weighs the four bits of its nibble 1, 2, 4 and 16 (R173, R176). -/
theorem rankOfAccumulator_toNat (acc : Word) (j : Nat) :
    (rankOfAccumulator acc j).toNat = (acc.getLsbD (4 * j)).toNat + 2 * (acc.getLsbD (4 * j + 1)).toNat +
      4 * (acc.getLsbD (4 * j + 2)).toNat + 16 * (acc.getLsbD (4 * j + 3)).toNat := by
  have h : rankOfAccumulator acc j = [0, 1, 2, 3].foldl
      (fun r k => if acc.getLsbD (4 * j + k) then r ||| 1#8 <<< rankShift k else r) 0 := rfl
  rw [h]
  simp only [List.foldl_cons, List.foldl_nil, Nat.add_zero]
  cases acc.getLsbD (4 * j) <;> cases acc.getLsbD (4 * j + 1) <;> cases acc.getLsbD (4 * j + 2) <;>
    cases acc.getLsbD (4 * j + 3) <;> rfl

/-- The weights 1, 2, 4 and 16 of a byte's low four bits (R178). -/
theorem nibble_weights (x : Byte) :
    (x.getLsbD 0).toNat + 2 * (x.getLsbD 1).toNat + 4 * (x.getLsbD 2).toNat + 16 * (x.getLsbD 3).toNat =
      x.toNat % 8 + 16 * (x.toNat / 8 % 2) := by
  revert x
  decide +kernel

/-- Reversing the packed bytes of RankEncode gives the accumulator back (R171, R173). -/
theorem be_reverse_rankEncode (r : Nat → Byte) : be (rankEncode r).reverse = (rankAccumulator r).toNat := by
  rw [rankEncode, List.reverse_reverse, be_bytesOf (by simpa using (rankAccumulator r).isLt)]

/-- What a rank comes back as from encode and decode (R177, R179, R180). -/
theorem rankDecode_rankEncode (r : Nat → Byte) {j : Nat} (hj : j < 8) :
    (rankDecode (rankEncode r) j).toNat = (r j).toNat % 8 + 16 * ((r j).toNat / 8 % 2) := by
  rw [rankDecode, be_reverse_rankEncode, BitVec.ofNat_toNat, BitVec.setWidth_eq, rankOfAccumulator_toNat]
  rw [rankAccumulator_bit r (by omega), rankAccumulator_bit r (by omega), rankAccumulator_bit r (by omega),
    rankAccumulator_bit r (by omega), ← nibble_weights]
  rw [show 4 * j / 4 = j by omega, show (4 * j + 1) / 4 = j by omega, show (4 * j + 2) / 4 = j by omega,
    show (4 * j + 3) / 4 = j by omega, show 4 * j % 4 = 0 by omega, show (4 * j + 1) % 4 = 1 by omega,
    show (4 * j + 2) % 4 = 2 by omega, show (4 * j + 3) % 4 = 3 by omega]

/-- RankEncode's bytes are those of the accumulator, the least significant first (R171). -/
theorem rankEncode_eq (r : Nat → Byte) :
    rankEncode r = [BitVec.ofNat 8 (rankAccumulator r).toNat, BitVec.ofNat 8 ((rankAccumulator r).toNat / 256),
      BitVec.ofNat 8 ((rankAccumulator r).toNat / 256 / 256), BitVec.ofNat 8 ((rankAccumulator r).toNat / 256 / 256 / 256)] :=
  rfl

/-- Byte i of a packed field holds ranks 2i and 2i + 1 in its low and high nibble (R171). -/
theorem rankEncode_byte_bit (r : Nat → Byte) {i k : Nat} (hi : i < 4) (hk : k < 8) :
    ((rankEncode r).getD i 0).getLsbD k = (r (2 * i + k / 4)).getLsbD (k % 4) := by
  have h : (rankAccumulator r).getLsbD (8 * i + k) = (r (2 * i + k / 4)).getLsbD (k % 4) := by
    rw [rankAccumulator_bit r (by omega), show (8 * i + k) / 4 = 2 * i + k / 4 by omega,
      show (8 * i + k) % 4 = k % 4 by omega]
  have hb : ∀ x : Nat, (BitVec.ofNat 8 x).getLsbD k = x.testBit k := by
    intro x
    rw [BitVec.getLsbD_ofNat]
    simp [hk]
  rw [← h, rankEncode_eq]
  obtain rfl | rfl | rfl | rfl : i = 0 ∨ i = 1 ∨ i = 2 ∨ i = 3 := by omega
  all_goals simp only [List.getD_cons_succ, List.getD_cons_zero, hb, Nat.div_div_eq_div_mul]
  · simp [BitVec.getLsbD]
  · rw [show (256 : Nat) = 2 ^ 8 by rfl, Nat.testBit_div_two_pow, Nat.add_comm]
    rfl
  · rw [show (256 * 256 : Nat) = 2 ^ 16 by rfl, Nat.testBit_div_two_pow, Nat.add_comm]
    rfl
  · rw [show (256 * 256 * 256 : Nat) = 2 ^ 24 by rfl, Nat.testBit_div_two_pow, Nat.add_comm]
    rfl

/-- Byte k of a packed field is the low nibbles of ranks 2k and 2k + 1 (R171). -/
theorem rankEncode_byte_toNat (r : Nat → Byte) {k : Nat} (hk : k < 4) :
    ((rankEncode r).getD k 0).toNat = (r (2 * k)).toNat % 16 + 16 * ((r (2 * k + 1)).toNat % 16) := by
  have e : (rankEncode r).getD k 0 = (r (2 * k + 1)).extractLsb' 0 4 ++ (r (2 * k)).extractLsb' 0 4 := by
    refine BitVec.eq_of_getLsbD_eq fun i hi => ?_
    rw [rankEncode_byte_bit r hk hi, BitVec.getLsbD_append]
    by_cases c : i < 4
    · simp [c, show i / 4 = 0 by omega, Nat.mod_eq_of_lt c]
    · simp [c, show i / 4 = 1 by omega, show i % 4 = i - 4 by omega, show i - 4 < 4 by omega]
  rw [e, BitVec.toNat_append, ← Nat.shiftLeft_add_eq_or_of_lt (BitVec.isLt _), Nat.shiftLeft_eq]
  simp only [BitVec.extractLsb'_toNat, Nat.shiftRight_zero]
  omega

end Sys2Proof.Machine
end

