-- ==== Sys2Proof/Laws/Record.lean ====
section
/-!
SUPPORT. The laws of the board record (44_board_record.md, 41_record_layout.md rule R136): the puts of REC_ENCODE touch disjoint
bytes within the record, so each element's bytes read back, and what decoding reads of a record.
-/

namespace Sys2Proof.Machine

open Config

section Puts

/-- Puts that rise in address leave the memory in canonical form. -/
theorem wf_foldl_puts (l : List (Nat × List Byte)) (hl : ∀ p ∈ l, p.1 + p.2.length ≤ nbytes) {m : Memory}
    (hm : m.wf = true) : (l.foldl (fun m p => m.putBytes p.1 p.2) m).wf = true := by
  induction l generalizing m with
  | nil => exact hm
  | cons p l ih =>
    exact ih (fun q hq => hl q (List.mem_cons_of_mem _ hq)) (Memory.wf_putBytes hm (hl p (by simp)))

/-- A byte that no put covers keeps its value. -/
theorem read_foldl_puts_other (l : List (Nat × List Byte)) {a : Nat}
    (ha : ∀ p ∈ l, a < p.1 ∨ p.1 + p.2.length ≤ a) (m : Memory) :
    (l.foldl (fun m p => m.putBytes p.1 p.2) m).read a = m.read a := by
  induction l generalizing m with
  | nil => rfl
  | cons p l ih =>
    rw [List.foldl_cons, ih fun q hq => ha q (List.mem_cons_of_mem _ hq), Memory.read_putBytes_other _ _ (ha p (by simp))]

/-- A byte that one of several disjoint puts covers holds what it put. -/
theorem read_foldl_puts_self {l : List (Nat × List Byte)} (hd : l.Pairwise fun p q => p.1 + p.2.length ≤ q.1)
    (hl : ∀ p ∈ l, p.1 + p.2.length ≤ nbytes) {m : Memory} (hm : m.wf = true) {p : Nat × List Byte} (hp : p ∈ l)
    {k : Nat} (hk : k < p.2.length) : (l.foldl (fun m p => m.putBytes p.1 p.2) m).read (p.1 + k) = p.2[k] := by
  induction l generalizing m with
  | nil => simp at hp
  | cons q l ih =>
    rw [List.pairwise_cons] at hd
    have hq := Memory.wf_putBytes hm (hl q (by simp))
    rw [List.foldl_cons]
    rcases List.mem_cons.mp hp with rfl | hp'
    · rw [read_foldl_puts_other l fun r hr => Or.inl (by have := hd.1 r hr; omega)]
      exact Memory.read_putBytes_self (Memory.wf_rising hm) hk
    · exact ih hd.2 (fun r hr => hl r (List.mem_cons_of_mem _ hr)) hq hp'

/-- The addresses and lengths of REC_ENCODE's puts, which are those of the layout (R132). -/
def recordShape : List (Nat × Nat) :=
  [(versionAddr, 1)] ++ (pairs 8 8).map (fun p => (unitItemAddr p.1 p.2, 3)) ++
  (pairs 8 8).map (fun p => (boardUnitAddr p.1 p.2, 1)) ++ (pairs 16 2).map (fun p => (talentAddr p.1 p.2, 1)) ++
  (List.range 8).map (fun b => (packedUnitRankAddr b, 4)) ++ (List.range 8).map (fun i => (benchItemAddr i, 3)) ++
  (List.range 8).map (fun i => (benchUnitAddr i, 1)) ++ [(packedBenchRankAddr, 4)] ++
  (List.range 2).map (fun p => (underlordIdAddr p, 1)) ++ (List.range 2).map (fun p => (underlordRankAddr p, 1)) ++
  (pairs 8 2).map (fun p => (unequippedItemAddr p.1 p.2, 3))

theorem recordPuts_shape (f : Fields) : (recordPuts f).map (fun p => (p.1, p.2.length)) = recordShape := by
  simp only [recordPuts, recordShape, List.map_append, List.map_map, List.map_cons, List.map_nil, Function.comp_def,
    itemEncode_length, rankEncode_length, List.length_cons, List.length_nil, Nat.zero_add]

/-- The element addresses rise, so no two overlap (R136). -/
theorem recordShape_rising : recordShape.Pairwise fun p q => p.1 + p.2 ≤ q.1 := by
  have trans : IsTrans (Nat × Nat) fun p q => p.1 + p.2 ≤ q.1 := ⟨fun _ _ _ h1 h2 => by omega⟩
  exact List.isChain_iff_pairwise.mp (by decide +kernel)

/-- Every element lies within the record (R136). -/
theorem recordShape_inBounds : ∀ p ∈ recordShape, p.1 + p.2 ≤ nbytes := by decide +kernel

theorem recordPuts_rising (f : Fields) : (recordPuts f).Pairwise fun p q => p.1 + p.2.length ≤ q.1 := by
  have h := recordShape_rising
  rw [← recordPuts_shape f, List.pairwise_map] at h
  exact h

theorem recordPuts_inBounds (f : Fields) : ∀ p ∈ recordPuts f, p.1 + p.2.length ≤ nbytes := by
  intro p hp
  refine recordShape_inBounds (p.1, p.2.length) ?_
  rw [← recordPuts_shape f]
  exact List.mem_map_of_mem hp

/-- REC_ENCODE leaves BUF in canonical form (R198). -/
theorem wf_encodeRecord (f : Fields) : (encodeRecord f).wf = true :=
  wf_foldl_puts _ (recordPuts_inBounds f) Memory.wf_nil

/-- A byte of one of REC_ENCODE's puts (R198). -/
theorem read_encodeRecord (f : Fields) {p : Nat × List Byte} (hp : p ∈ recordPuts f) {k : Nat} (hk : k < p.2.length) :
    (encodeRecord f).read (p.1 + k) = p.2[k] :=
  read_foldl_puts_self (recordPuts_rising f) (recordPuts_inBounds f) Memory.wf_nil hp hk

/-- A put of REC_ENCODE reads back whole (R198). -/
theorem bytes_encodeRecord (f : Fields) {a : Nat} {d : List Byte} (hp : (a, d) ∈ recordPuts f) :
    (encodeRecord f).bytes a d.length = d := by
  refine List.ext_getElem (by simp) fun k h1 h2 => ?_
  simpa [Memory.bytes] using read_encodeRecord f hp h2

/-- A byte of no put is 0 after REC_ENCODE (R198). -/
theorem read_encodeRecord_other (f : Fields) {a : Nat} (ha : ∀ p ∈ recordShape, a < p.1 ∨ p.1 + p.2 ≤ a) :
    (encodeRecord f).read a = 0 := by
  refine read_foldl_puts_other _ (fun p hp => ha (p.1, p.2.length) ?_) []
  rw [← recordPuts_shape f]
  exact List.mem_map_of_mem hp

end Puts

section Elements

variable (f : Fields)

theorem encodeRecord_version : (encodeRecord f).read versionAddr = f.version.get 0 0 :=
  read_encodeRecord f (p := (versionAddr, [f.version.get 0 0])) (k := 0) (by simp [recordPuts]) (by simp)

theorem encodeRecord_unitItem {a b : Nat} (ha : a < 8) (hb : b < 8) :
    (encodeRecord f).bytes (unitItemAddr a b) 3 = itemEncode (f.unitItems.get a b) := by
  refine bytes_encodeRecord f (d := itemEncode (f.unitItems.get a b)) ?_
  have := List.mem_map_of_mem (f := fun p : Nat × Nat => (unitItemAddr p.1 p.2, itemEncode (f.unitItems.get p.1 p.2)))
    (mem_pairs.mpr ⟨ha, hb⟩)
  simp only [recordPuts, List.mem_append]
  tauto

theorem encodeRecord_boardUnit {a b : Nat} (ha : a < 8) (hb : b < 8) :
    (encodeRecord f).read (boardUnitAddr a b) = f.boardUnitIDs.get a b := by
  refine read_encodeRecord f (p := (boardUnitAddr a b, [f.boardUnitIDs.get a b])) (k := 0) ?_ (by simp)
  have := List.mem_map_of_mem (f := fun p : Nat × Nat => (boardUnitAddr p.1 p.2, [f.boardUnitIDs.get p.1 p.2]))
    (mem_pairs.mpr ⟨ha, hb⟩)
  simp only [recordPuts, List.mem_append]
  tauto

theorem encodeRecord_talent {t p : Nat} (ht : t < 16) (hp : p < 2) :
    (encodeRecord f).read (talentAddr t p) = f.selectedTalents.get t p := by
  refine read_encodeRecord f (p := (talentAddr t p, [f.selectedTalents.get t p])) (k := 0) ?_ (by simp)
  have := List.mem_map_of_mem (f := fun q : Nat × Nat => (talentAddr q.1 q.2, [f.selectedTalents.get q.1 q.2]))
    (mem_pairs.mpr ⟨ht, hp⟩)
  simp only [recordPuts, List.mem_append]
  tauto

theorem encodeRecord_unitRanks {b : Nat} (hb : b < 8) :
    (encodeRecord f).bytes (packedUnitRankAddr b) 4 = rankEncode (fun a => f.unitRanks.get a b) := by
  have h := bytes_encodeRecord f (a := packedUnitRankAddr b) (d := rankEncode (fun a => f.unitRanks.get a b)) ?_
  · rwa [rankEncode_length] at h
  have := List.mem_map_of_mem (f := fun b => (packedUnitRankAddr b, rankEncode (fun a => f.unitRanks.get a b)))
    (List.mem_range.mpr hb)
  simp only [recordPuts, List.mem_append]
  tauto

theorem encodeRecord_benchItem {i : Nat} (hi : i < 8) :
    (encodeRecord f).bytes (benchItemAddr i) 3 = itemEncode (f.benchUnitItems.get i 0) := by
  refine bytes_encodeRecord f (d := itemEncode (f.benchUnitItems.get i 0)) ?_
  have := List.mem_map_of_mem (f := fun i => (benchItemAddr i, itemEncode (f.benchUnitItems.get i 0)))
    (List.mem_range.mpr hi)
  simp only [recordPuts, List.mem_append]
  tauto

theorem encodeRecord_benchUnit {i : Nat} (hi : i < 8) :
    (encodeRecord f).read (benchUnitAddr i) = f.benchedUnitIDs.get i 0 := by
  refine read_encodeRecord f (p := (benchUnitAddr i, [f.benchedUnitIDs.get i 0])) (k := 0) ?_ (by simp)
  have := List.mem_map_of_mem (f := fun i => (benchUnitAddr i, [f.benchedUnitIDs.get i 0])) (List.mem_range.mpr hi)
  simp only [recordPuts, List.mem_append]
  tauto

theorem encodeRecord_benchRanks :
    (encodeRecord f).bytes packedBenchRankAddr 4 = rankEncode (fun i => f.benchUnitRanks.get i 0) := by
  have h := bytes_encodeRecord f (a := packedBenchRankAddr) (d := rankEncode (fun i => f.benchUnitRanks.get i 0)) ?_
  · rwa [rankEncode_length] at h
  have := List.mem_singleton_self (packedBenchRankAddr, rankEncode (fun i => f.benchUnitRanks.get i 0))
  simp only [recordPuts, List.mem_append]
  tauto

theorem encodeRecord_underlordId {p : Nat} (hp : p < 2) :
    (encodeRecord f).read (underlordIdAddr p) = f.underlordIDs.get p 0 := by
  refine read_encodeRecord f (p := (underlordIdAddr p, [f.underlordIDs.get p 0])) (k := 0) ?_ (by simp)
  have := List.mem_map_of_mem (f := fun p => (underlordIdAddr p, [f.underlordIDs.get p 0])) (List.mem_range.mpr hp)
  simp only [recordPuts, List.mem_append]
  tauto

theorem encodeRecord_underlordRank {p : Nat} (hp : p < 2) :
    (encodeRecord f).read (underlordRankAddr p) = f.underlordRanks.get p 0 := by
  refine read_encodeRecord f (p := (underlordRankAddr p, [f.underlordRanks.get p 0])) (k := 0) ?_ (by simp)
  have := List.mem_map_of_mem (f := fun p => (underlordRankAddr p, [f.underlordRanks.get p 0])) (List.mem_range.mpr hp)
  simp only [recordPuts, List.mem_append]
  tauto

theorem encodeRecord_unequippedItem {i j : Nat} (hi : i < 8) (hj : j < 2) :
    (encodeRecord f).bytes (unequippedItemAddr i j) 3 = itemEncode (f.unequippedItems.get i j) := by
  refine bytes_encodeRecord f (d := itemEncode (f.unequippedItems.get i j)) ?_
  have := List.mem_map_of_mem
    (f := fun p : Nat × Nat => (unequippedItemAddr p.1 p.2, itemEncode (f.unequippedItems.get p.1 p.2)))
    (mem_pairs.mpr ⟨hi, hj⟩)
  simp only [recordPuts, List.mem_append]
  tauto

end Elements

section Decoding

variable (m : Memory)

theorem Memory.bytes_three (a : Nat) : m.bytes a 3 = [m.read a, m.read (a + 1), m.read (a + 2)] := by
  simp [Memory.bytes, List.range_succ]

theorem Memory.bytes_four (a : Nat) :
    m.bytes a 4 = [m.read a, m.read (a + 1), m.read (a + 2), m.read (a + 3)] := by
  simp [Memory.bytes, List.range_succ]

/-- A decoded item id is its slot's high byte times 256 plus its low byte (R153). -/
theorem Memory.item_toNat (a : Nat) : (m.item a).toNat = (m.read (a + 1)).toNat * 256 + (m.read a).toNat := by
  rw [Memory.item, Memory.bytes_three, itemDecode_toNat]

/-- Bit `n` of a packed field's accumulator is bit n mod 8 of its byte n / 8: the field is little-endian (R52). -/
theorem accumulator_bit (q0 q1 q2 q3 : Byte) {n : Nat} (hn : n < 32) :
    (BitVec.ofNat 32 (be [q0, q1, q2, q3].reverse)).getLsbD n = ([q0, q1, q2, q3].getD (n / 8) 0).getLsbD (n % 8) := by
  have h : BitVec.ofNat 32 (be [q0, q1, q2, q3].reverse) = q3 ++ q2 ++ q1 ++ q0 := by
    refine BitVec.eq_of_toNat_eq ?_
    have h0 := q0.isLt
    have h1 := q1.isLt
    have h2 := q2.isLt
    have h3 := q3.isLt
    simp only [BitVec.toNat_append]
    rw [← Nat.shiftLeft_add_eq_or_of_lt h2, ← Nat.shiftLeft_add_eq_or_of_lt h1, ← Nat.shiftLeft_add_eq_or_of_lt h0]
    simp only [Nat.shiftLeft_eq, BitVec.toNat_ofNat, be, List.reverse_cons, List.reverse_nil, List.nil_append,
      List.cons_append, List.foldl_cons, List.foldl_nil]
    omega
  rw [h, BitVec.getLsbD_append, BitVec.getLsbD_append, BitVec.getLsbD_append]
  by_cases a1 : n < 8
  · simp [a1, show n / 8 = 0 by omega, show n % 8 = n by omega]
  · by_cases a2 : n < 16
    · simp [a1, show n / 8 = 1 by omega, show n % 8 = n - 8 by omega, show n - 8 < 8 by omega]
    · by_cases a3 : n < 24
      · simp [a1, show n / 8 = 2 by omega, show n % 8 = n - 8 - 8 by omega, show ¬n - 8 < 8 by omega,
          show n - 8 - 8 < 8 by omega]
      · simp [a1, show n / 8 = 3 by omega, show n % 8 = n - 8 - 8 - 8 by omega, show ¬n - 8 < 8 by omega,
          show ¬n - 8 - 8 < 8 by omega]

/-- Rank `j` of a packed field: nibble n of byte j / 2 decodes to (n & 7) + 16 * (n >> 3) (R178). -/
theorem Memory.rank_toNat (a : Nat) {j : Nat} (hj : j < 8) :
    (m.rank a j).toNat = (m.read (a + j / 2)).toNat / 16 ^ (j % 2) % 8 +
      16 * ((m.read (a + j / 2)).toNat / 16 ^ (j % 2) / 8 % 2) := by
  have hw : ∀ x : Byte, ∀ h < 2, (x.getLsbD (4 * h)).toNat + 2 * (x.getLsbD (4 * h + 1)).toNat +
      4 * (x.getLsbD (4 * h + 2)).toNat + 16 * (x.getLsbD (4 * h + 3)).toNat =
        x.toNat / 16 ^ h % 8 + 16 * (x.toNat / 16 ^ h / 8 % 2) := by decide +kernel
  have hq : [m.read a, m.read (a + 1), m.read (a + 2), m.read (a + 3)].getD (j / 2) 0 = m.read (a + j / 2) := by
    obtain h | h | h | h : j / 2 = 0 ∨ j / 2 = 1 ∨ j / 2 = 2 ∨ j / 2 = 3 := by omega
    all_goals rw [h]; rfl
  rw [Memory.rank, Memory.bytes_four, rankDecode, rankOfAccumulator_toNat, accumulator_bit _ _ _ _ (by omega),
    accumulator_bit _ _ _ _ (by omega), accumulator_bit _ _ _ _ (by omega), accumulator_bit _ _ _ _ (by omega),
    show (4 * j + 1) / 8 = 4 * j / 8 by omega, show (4 * j + 2) / 8 = 4 * j / 8 by omega,
    show (4 * j + 3) / 8 = 4 * j / 8 by omega, show 4 * j / 8 = j / 2 by omega, hq,
    show 4 * j % 8 = 4 * (j % 2) by omega, show (4 * j + 1) % 8 = 4 * (j % 2) + 1 by omega,
    show (4 * j + 2) % 8 = 4 * (j % 2) + 2 by omega, show (4 * j + 3) % 8 = 4 * (j % 2) + 3 by omega,
    hw _ _ (by omega)]

theorem decodeRecord_version {i j : Nat} (hi : i < 1) (hj : j < 1) :
    (decodeRecord m).read .version i j = (m.read versionAddr).toNat :=
  congrArg BitVec.toNat (Grid.get_tabulate (I := 1) (J := 1) (fun _ _ => m.read versionAddr) hi hj)

theorem decodeRecord_unitItem {i j : Nat} (hi : i < 8) (hj : j < 8) :
    (decodeRecord m).read .unitItems i j = (m.item (unitItemAddr i j)).toNat :=
  congrArg BitVec.toNat (Grid.get_tabulate (I := 8) (J := 8) (fun i j => m.item (unitItemAddr i j)) hi hj)

theorem decodeRecord_boardUnit {i j : Nat} (hi : i < 8) (hj : j < 8) :
    (decodeRecord m).read .boardUnitIDs i j = (m.read (boardUnitAddr i j)).toNat :=
  congrArg BitVec.toNat (Grid.get_tabulate (I := 8) (J := 8) (fun i j => m.read (boardUnitAddr i j)) hi hj)

theorem decodeRecord_talent {i j : Nat} (hi : i < 16) (hj : j < 2) :
    (decodeRecord m).read .selectedTalents i j = (m.read (talentAddr i j)).toNat :=
  congrArg BitVec.toNat (Grid.get_tabulate (I := 16) (J := 2) (fun i j => m.read (talentAddr i j)) hi hj)

theorem decodeRecord_unitRank {i j : Nat} (hi : i < 8) (hj : j < 8) :
    (decodeRecord m).read .unitRanks i j = (m.rank (packedUnitRankAddr j) i).toNat :=
  congrArg BitVec.toNat (Grid.get_tabulate (I := 8) (J := 8) (fun i j => m.rank (packedUnitRankAddr j) i) hi hj)

theorem decodeRecord_benchItem {i j : Nat} (hi : i < 8) (hj : j < 1) :
    (decodeRecord m).read .benchUnitItems i j = (m.item (benchItemAddr i)).toNat :=
  congrArg BitVec.toNat (Grid.get_tabulate (I := 8) (J := 1) (fun i _ => m.item (benchItemAddr i)) hi hj)

theorem decodeRecord_benchUnit {i j : Nat} (hi : i < 8) (hj : j < 1) :
    (decodeRecord m).read .benchedUnitIDs i j = (m.read (benchUnitAddr i)).toNat :=
  congrArg BitVec.toNat (Grid.get_tabulate (I := 8) (J := 1) (fun i _ => m.read (benchUnitAddr i)) hi hj)

theorem decodeRecord_benchRank {i j : Nat} (hi : i < 8) (hj : j < 1) :
    (decodeRecord m).read .benchUnitRanks i j = (m.rank packedBenchRankAddr i).toNat :=
  congrArg BitVec.toNat (Grid.get_tabulate (I := 8) (J := 1) (fun i _ => m.rank packedBenchRankAddr i) hi hj)

theorem decodeRecord_underlordId {i j : Nat} (hi : i < 2) (hj : j < 1) :
    (decodeRecord m).read .underlordIDs i j = (m.read (underlordIdAddr i)).toNat :=
  congrArg BitVec.toNat (Grid.get_tabulate (I := 2) (J := 1) (fun i _ => m.read (underlordIdAddr i)) hi hj)

theorem decodeRecord_underlordRank {i j : Nat} (hi : i < 2) (hj : j < 1) :
    (decodeRecord m).read .underlordRanks i j = (m.read (underlordRankAddr i)).toNat :=
  congrArg BitVec.toNat (Grid.get_tabulate (I := 2) (J := 1) (fun i _ => m.read (underlordRankAddr i)) hi hj)

theorem decodeRecord_unequippedItem {i j : Nat} (hi : i < 8) (hj : j < 2) :
    (decodeRecord m).read .unequippedItems i j = (m.item (unequippedItemAddr i j)).toNat :=
  congrArg BitVec.toNat (Grid.get_tabulate (I := 8) (J := 2) (fun i j => m.item (unequippedItemAddr i j)) hi hj)

end Decoding

section Bytes

variable {m : Memory} {a : Nat}

/-- The bytes of an encoded slot (R151). -/
theorem Memory.slot_bytes {id : BitVec 16} (h : m.bytes a 3 = itemEncode id) :
    (m.read a).toNat = id.toNat % 256 ∧ (m.read (a + 1)).toNat = id.toNat / 256 ∧ m.read (a + 2) = 0 := by
  rw [Memory.bytes_three, itemEncode] at h
  simp only [List.cons.injEq, and_true] at h
  obtain ⟨h0, h1, h2⟩ := h
  rw [h0, h1, h2]
  exact ⟨low_toNat _, high_toNat _, rfl⟩

/-- The bytes of an encoded packed field (R171). -/
theorem Memory.packed_bytes {r : Nat → Byte} (h : m.bytes a 4 = rankEncode r) {k : Nat} (hk : k < 4) :
    (m.read (a + k)).toNat = (r (2 * k)).toNat % 16 + 16 * ((r (2 * k + 1)).toNat % 16) := by
  rw [← rankEncode_byte_toNat r hk, ← h]
  simp [Memory.bytes, hk, List.getD]

end Bytes

section Written

variable (f : Fields)

/-! The bytes that REC_ENCODE leaves (R198), as numbers, at the addresses of R132 written out. -/

theorem encodeRecord_version_toNat : ((encodeRecord f).read 0).toNat = f.read .version 0 0 := by
  have h := encodeRecord_version f
  unfold versionAddr at h
  rw [h]
  rfl

theorem encodeRecord_unitItem_toNat {a b : Nat} (ha : a < 8) (hb : b < 8) :
    ((encodeRecord f).read (1 + 3 * (8 * a + b))).toNat = f.read .unitItems a b % 256 ∧
      ((encodeRecord f).read (1 + 3 * (8 * a + b) + 1)).toNat = f.read .unitItems a b / 256 ∧
      (encodeRecord f).read (1 + 3 * (8 * a + b) + 2) = 0 := by
  have h := Memory.slot_bytes (encodeRecord_unitItem f ha hb)
  unfold unitItemAddr at h
  exact h

theorem encodeRecord_boardUnit_toNat {a b : Nat} (ha : a < 8) (hb : b < 8) :
    ((encodeRecord f).read (193 + 8 * a + b)).toNat = f.read .boardUnitIDs a b := by
  have h := encodeRecord_boardUnit f ha hb
  unfold boardUnitAddr at h
  rw [h]
  rfl

theorem encodeRecord_talent_toNat {t p : Nat} (ht : t < 16) (hp : p < 2) :
    ((encodeRecord f).read (257 + 2 * t + p)).toNat = f.read .selectedTalents t p := by
  have h := encodeRecord_talent f ht hp
  unfold talentAddr at h
  rw [h]
  rfl

theorem encodeRecord_unitRanks_toNat {b k : Nat} (hb : b < 8) (hk : k < 4) :
    ((encodeRecord f).read (292 + 4 * b + k)).toNat =
      f.read .unitRanks (2 * k) b % 16 + 16 * (f.read .unitRanks (2 * k + 1) b % 16) := by
  have h := Memory.packed_bytes (encodeRecord_unitRanks f hb) hk
  unfold packedUnitRankAddr at h
  exact h

theorem encodeRecord_benchItem_toNat {i : Nat} (hi : i < 8) :
    ((encodeRecord f).read (324 + 3 * i)).toNat = f.read .benchUnitItems i 0 % 256 ∧
      ((encodeRecord f).read (324 + 3 * i + 1)).toNat = f.read .benchUnitItems i 0 / 256 ∧
      (encodeRecord f).read (324 + 3 * i + 2) = 0 := by
  have h := Memory.slot_bytes (encodeRecord_benchItem f hi)
  unfold benchItemAddr at h
  exact h

theorem encodeRecord_benchUnit_toNat {i : Nat} (hi : i < 8) :
    ((encodeRecord f).read (348 + i)).toNat = f.read .benchedUnitIDs i 0 := by
  have h := encodeRecord_benchUnit f hi
  unfold benchUnitAddr at h
  rw [h]
  rfl

theorem encodeRecord_benchRanks_toNat {k : Nat} (hk : k < 4) :
    ((encodeRecord f).read (356 + k)).toNat =
      f.read .benchUnitRanks (2 * k) 0 % 16 + 16 * (f.read .benchUnitRanks (2 * k + 1) 0 % 16) := by
  have h := Memory.packed_bytes (encodeRecord_benchRanks f) hk
  unfold packedBenchRankAddr at h
  exact h

theorem encodeRecord_underlordId_toNat {p : Nat} (hp : p < 2) :
    ((encodeRecord f).read (360 + p)).toNat = f.read .underlordIDs p 0 := by
  have h := encodeRecord_underlordId f hp
  unfold underlordIdAddr at h
  rw [h]
  rfl

theorem encodeRecord_underlordRank_toNat {p : Nat} (hp : p < 2) :
    ((encodeRecord f).read (362 + p)).toNat = f.read .underlordRanks p 0 := by
  have h := encodeRecord_underlordRank f hp
  unfold underlordRankAddr at h
  rw [h]
  rfl

theorem encodeRecord_unequippedItem_toNat {i j : Nat} (hi : i < 8) (hj : j < 2) :
    ((encodeRecord f).read (364 + 3 * (2 * i + j))).toNat = f.read .unequippedItems i j % 256 ∧
      ((encodeRecord f).read (364 + 3 * (2 * i + j) + 1)).toNat = f.read .unequippedItems i j / 256 ∧
      (encodeRecord f).read (364 + 3 * (2 * i + j) + 2) = 0 := by
  have h := Memory.slot_bytes (encodeRecord_unequippedItem f hi hj)
  unfold unequippedItemAddr at h
  exact h

end Written

end Sys2Proof.Machine
end

