-- ==== Sys2Proof/Laws/State.lean ====
section
/-!
SUPPORT. One lemma per field per update of State (10_state.md rule R20), so that no proof unfolds a record update.
-/

namespace Sys2Proof.Machine

section Complete

variable (s : State) (v : Nat)

@[simp] theorem State.complete_buf : (s.complete v).buf = s.buf := rfl
@[simp] theorem State.complete_f : (s.complete v).f = s.f := rfl
@[simp] theorem State.complete_faultKind : (s.complete v).faultKind = s.faultKind := rfl
@[simp] theorem State.complete_faultCmd : (s.complete v).faultCmd = s.faultCmd := rfl
@[simp] theorem State.complete_cmd : (s.complete v).cmd = s.cmd := rfl
@[simp] theorem State.complete_din : (s.complete v).din = s.din := rfl
@[simp] theorem State.complete_inputs : (s.complete v).inputs = s.inputs := rfl
@[simp] theorem State.complete_responses : (s.complete v).responses = ⟨.ok, port v⟩ :: s.responses := rfl

end Complete

section Fault

variable (s : State) (k : FaultKind)

@[simp] theorem State.enterFault_buf : (s.enterFault k).buf = s.buf := rfl
@[simp] theorem State.enterFault_f : (s.enterFault k).f = s.f := rfl
@[simp] theorem State.enterFault_faultKind : (s.enterFault k).faultKind = k.code := rfl
@[simp] theorem State.enterFault_faultCmd : (s.enterFault k).faultCmd = s.cmd := rfl
@[simp] theorem State.enterFault_cmd : (s.enterFault k).cmd = s.cmd := rfl
@[simp] theorem State.enterFault_din : (s.enterFault k).din = s.din := rfl
@[simp] theorem State.enterFault_inputs : (s.enterFault k).inputs = s.inputs := rfl
@[simp] theorem State.enterFault_responses : (s.enterFault k).responses = ⟨.fault k, 0⟩ :: s.responses := rfl

end Fault

section Present

variable (s : State) (w : Word) (d : Din) (rest : List HostInput)

@[simp] theorem State.present_buf : (s.present w d rest).buf = s.buf := rfl
@[simp] theorem State.present_f : (s.present w d rest).f = s.f := rfl
@[simp] theorem State.present_faultKind : (s.present w d rest).faultKind = s.faultKind := rfl
@[simp] theorem State.present_faultCmd : (s.present w d rest).faultCmd = s.faultCmd := rfl
@[simp] theorem State.present_cmd : (s.present w d rest).cmd = w := rfl
@[simp] theorem State.present_din : (s.present w d rest).din = d := rfl
@[simp] theorem State.present_inputs : (s.present w d rest).inputs = rest := rfl
@[simp] theorem State.present_responses : (s.present w d rest).responses = s.responses := rfl

end Present

section Kind

variable {s : State} {v : Data} {d : List Byte}

/-- An integer on the port lets a command of integers run (R87). -/
theorem State.withInteger_int (h : s.din = .int v) (g : Data → State) : s.withInteger g = .next (g v) := by
  simp [State.withInteger, h]

/-- A byte sequence for a command of integers raises ILLEGAL_COMMAND (R87). -/
theorem State.withInteger_bytes (h : s.din = .bytes d) (g : Data → State) :
    s.withInteger g = .next (s.enterFault .illegalCommand) := by
  simp [State.withInteger, h]

/-- A byte sequence on the port lets REC_LOAD run (R87). -/
theorem State.withBytes_bytes (h : s.din = .bytes d) (g : List Byte → State) : s.withBytes g = .next (g d) := by
  simp [State.withBytes, h]

/-- An integer for REC_LOAD raises ILLEGAL_COMMAND (R87). -/
theorem State.withBytes_int (h : s.din = .int v) (g : List Byte → State) :
    s.withBytes g = .next (s.enterFault .illegalCommand) := by
  simp [State.withBytes, h]

end Kind

/-- Every fault code is between 1 and 8, so never NONE (R231). -/
@[simp] theorem FaultKind.code_ne_zero (k : FaultKind) : k.code ≠ 0#4 := by cases k <;> decide

end Sys2Proof.Machine
end

