-- ==== Sys2Proof/Laws/Exec.lean ====
section
/-!
SUPPORT. Everything a command can do, said once: it completes with a response and at most one of BUF and F changed, or it enters a
fault (60_exceptions.md rule R236). Later proofs cite this and unfold no meaning.
-/

namespace Sys2Proof.Machine

/-- How a command ends: with STATUS = OK, BUF and F changed only by the commands that may, or with a fault. -/
inductive Ends (i : Instr) (s : State) : State → Prop where
  | completes (m : Memory) (g : Fields) (v : Nat) (hm : s.buf.wf = true → m.wf = true)
      (hb : writesBuf i = false → m = s.buf) (hf : writesFields i = false → g = s.f) :
      Ends i s (State.complete { s with buf := m, f := g } v)
  | faults (k : FaultKind) (hk : raises i k = true) : Ends i s (s.enterFault k)

/-- A command that changes nothing ends so. -/
theorem Ends.plain (i : Instr) (s : State) (v : Nat) : Ends i s (s.complete v) :=
  .completes s.buf s.f v id (fun _ => rfl) (fun _ => rfl)

theorem withInteger_ends {i : Instr} {s : State} {g : Data → State} (h : ∀ v, s.din = .int v → Ends i s (g v)) :
    ∃ t, s.withInteger g = .next t ∧ Ends i s t := by
  cases hd : s.din with
  | int v => exact ⟨g v, State.withInteger_int hd g, h v hd⟩
  | bytes d => exact ⟨_, State.withInteger_bytes hd g, .faults _ rfl⟩

theorem withBytes_ends {i : Instr} {s : State} {g : List Byte → State} (h : ∀ d, s.din = .bytes d → Ends i s (g d)) :
    ∃ t, s.withBytes g = .next t ∧ Ends i s t := by
  cases hd : s.din with
  | bytes d => exact ⟨g d, State.withBytes_bytes hd g, h d hd⟩
  | int v => exact ⟨_, State.withBytes_int hd g, .faults _ rfl⟩

/-- Every command answers a next state, and ends in one of the two ways. -/
theorem exec_ends (i : Instr) (s : State) : ∃ t, exec i s = .next t ∧ Ends i s t := by
  cases i with
  | bbRead off len =>
    refine withInteger_ends fun v _ => ?_
    split
    · exact .faults _ rfl
    · exact .plain _ _ _
  | bbWrite off len =>
    refine withInteger_ends fun v _ => ?_
    split
    · exact .faults _ rfl
    · rename_i hb
      split
      · exact .faults _ rfl
      · exact .completes _ s.f _ (fun hm => Memory.wf_writeBits hm (by unfold rangeOutOfBounds at hb; omega) _)
          (by simp [writesBuf]) (fun _ => rfl)
  | recLoad =>
    refine withBytes_ends fun d _ => ?_
    split
    · exact .faults _ rfl
    · rename_i hb
      exact .completes _ s.f _ (fun hm => Memory.wf_putBytes hm (by unfold wrongRecordLength at hb; omega))
        (by simp [writesBuf]) (fun _ => rfl)
  | layout fid => exact withInteger_ends fun _ _ => .plain _ _ _
  | itemEnc =>
    refine withInteger_ends fun v _ => ?_
    split
    · exact .faults _ rfl
    · exact .plain _ _ _
  | itemDec =>
    refine withInteger_ends fun v _ => ?_
    split
    · exact .faults _ rfl
    · exact .plain _ _ _
  | rankEnc =>
    refine withInteger_ends fun v _ => ?_
    split
    · exact .faults _ rfl
    · exact .plain _ _ _
  | rankDec =>
    refine withInteger_ends fun v _ => ?_
    split
    · exact .faults _ rfl
    · exact .plain _ _ _
  | recDecode =>
    exact withInteger_ends fun _ _ => .completes s.buf _ _ id (fun _ => rfl) (by simp [writesFields])
  | recEncode =>
    exact withInteger_ends fun _ _ => .completes _ s.f _ (fun _ => wf_encodeRecord s.f) (by simp [writesBuf]) (fun _ => rfl)
  | recClear =>
    exact withInteger_ends fun _ _ => .completes s.buf _ _ id (fun _ => rfl) (by simp [writesFields])
  | fieldRd fid i j =>
    refine withInteger_ends fun v _ => ?_
    split
    · exact .faults _ rfl
    · exact .plain _ _ _
  | fieldWr fid i j =>
    refine withInteger_ends fun v _ => ?_
    split
    · exact .faults _ rfl
    · split
      · exact .faults _ rfl
      · exact .completes s.buf _ _ id (fun _ => rfl) (by simp [writesFields])

end Sys2Proof.Machine
end

