-- ==== Sys2Proof/Laws/Meanings.lean ====
section
/-!
SUPPORT. What exec answers where a command has its own effect, one equation per command; and what the data port carries of its result.
-/

namespace Sys2Proof.Machine

open Config

variable {s : State} {v : Data}

/-- A result of at most 64 bits fits the port. -/
theorem port_toNat_small {x n : Nat} (h : x < 2 ^ n) (hn : n ≤ 64) : (port x).toNat = x :=
  port_toNat_of_lt h (by rw [dataWidth_eq]; omega)

/-- A range read in bounds fits the port (R111). -/
theorem port_readBits {m : Memory} {off len : Nat} (h : off + len ≤ 3392) :
    (port (m.readBits off len)).toNat = m.readBits off len :=
  port_toNat_of_lt (m.readBits_lt off len) (by rw [dataWidth_eq]; omega)

theorem range_in_bounds {off len : Nat} (h : off + len ≤ 3392) : ¬rangeOutOfBounds off len := by
  unfold rangeOutOfBounds
  rw [nbits_eq]
  omega

/-- Completion with DOUT = v changes the responses alone. -/
theorem State.complete_eq (v : Nat) : s.complete v = { s with responses := ⟨.ok, port v⟩ :: s.responses } := rfl

/-- Completion with BUF changed and DOUT = 0. -/
theorem State.complete_withBuf (m : Memory) :
    State.complete { s with buf := m } 0 = { s with buf := m, responses := ⟨.ok, 0⟩ :: s.responses } := rfl

/-- Completion with F changed and DOUT = 0. -/
theorem State.complete_withF (g : Fields) :
    State.complete { s with f := g } 0 = { s with f := g, responses := ⟨.ok, 0⟩ :: s.responses } := rfl

theorem exec_bbRead {off len : Nat} (hv : s.din = .int v) (h : off + len ≤ 3392) :
    exec (.bbRead off len) s = .next (s.complete (s.buf.readBits off len)) :=
  (State.withInteger_int hv _).trans (congrArg _ (if_neg (range_in_bounds h)))

theorem exec_bbWrite {off len : Nat} (hv : s.din = .int v) (h : off + len ≤ 3392) (hw : v.toNat < 2 ^ len) :
    exec (.bbWrite off len) s = .next { s with buf := s.buf.writeBits off len v.toNat, responses := ⟨.ok, 0⟩ :: s.responses } :=
  (State.withInteger_int hv _).trans
    (congrArg _ ((if_neg (range_in_bounds h)).trans ((if_neg (Nat.not_le.mpr hw)).trans (State.complete_withBuf _))))

theorem exec_recLoad {d : List Byte} (hd : s.din = .bytes d) (h : d.length = 424) :
    exec .recLoad s = .next { s with buf := s.buf.putBytes 0 d, responses := ⟨.ok, 0⟩ :: s.responses } :=
  (State.withBytes_bytes hd _).trans
    (congrArg _ ((if_neg (not_not.mpr (h.trans nbytes_eq.symm))).trans (State.complete_withBuf _)))

theorem exec_layout (fid : FieldId) (hv : s.din = .int v) :
    exec (.layout fid) s = .next (s.complete (fid.layout.1 * 2 ^ 16 + fid.layout.2)) :=
  State.withInteger_int hv _

theorem exec_itemEnc (hv : s.din = .int v) (h : v.toNat < 2 ^ 16) :
    exec .itemEnc s = .next (s.complete (v.toNat % 256 * 2 ^ 16 + v.toNat / 256 * 2 ^ 8)) := by
  refine (State.withInteger_int hv _).trans (congrArg _ ((if_neg (Nat.not_le.mpr h)).trans ?_))
  rw [be_itemEncode]
  simp only [BitVec.toNat_setWidth, Nat.mod_eq_of_lt h]

theorem exec_itemDec (hv : s.din = .int v) (h : v.toNat < 2 ^ 24) :
    exec .itemDec s = .next (s.complete (v.toNat / 2 ^ 8 % 256 * 256 + v.toNat / 2 ^ 16)) := by
  refine (State.withInteger_int hv _).trans (congrArg _ ((if_neg (Nat.not_le.mpr h)).trans ?_))
  have e : bytesOf 3 v.toNat =
      [BitVec.ofNat 8 (v.toNat / 256 / 256), BitVec.ofNat 8 (v.toNat / 256), BitVec.ofNat 8 v.toNat] := rfl
  rw [e, itemDecode_toNat]
  simp only [BitVec.toNat_ofNat]
  congr 1
  omega

theorem exec_rankEnc (hv : s.din = .int v) (h : v.toNat < 2 ^ 64) :
    exec .rankEnc s = .next (s.complete (be (rankEncode (lane v)))) :=
  (State.withInteger_int hv _).trans (congrArg _ (if_neg (Nat.not_le.mpr h)))

theorem exec_rankDec (hv : s.din = .int v) (h : v.toNat < 2 ^ 32) :
    exec .rankDec s = .next (s.complete (ofLanes (rankDecode (bytesOf 4 v.toNat)))) :=
  (State.withInteger_int hv _).trans (congrArg _ (if_neg (Nat.not_le.mpr h)))

theorem exec_recDecode (hv : s.din = .int v) :
    exec .recDecode s = .next { s with f := decodeRecord s.buf, responses := ⟨.ok, 0⟩ :: s.responses } :=
  (State.withInteger_int hv _).trans (congrArg _ (State.complete_withF _))

theorem exec_recEncode (hv : s.din = .int v) :
    exec .recEncode s = .next { s with buf := encodeRecord s.f, responses := ⟨.ok, 0⟩ :: s.responses } :=
  (State.withInteger_int hv _).trans (congrArg _ (State.complete_withBuf _))

theorem exec_recClear (hv : s.din = .int v) :
    exec .recClear s = .next { s with f := Fields.zero, responses := ⟨.ok, 0⟩ :: s.responses } :=
  (State.withInteger_int hv _).trans (congrArg _ (State.complete_withF _))

theorem exec_fieldRd {fid : FieldId} {i j : Nat} (hv : s.din = .int v) (h : ¬indexOutOfRange fid i j) :
    exec (.fieldRd fid i j) s = .next (s.complete (s.f.read fid i j)) :=
  (State.withInteger_int hv _).trans (congrArg _ (if_neg h))

theorem exec_fieldWr {fid : FieldId} {i j : Nat} (hv : s.din = .int v) (h : ¬indexOutOfRange fid i j)
    (hw : v.toNat < 2 ^ fid.width) :
    exec (.fieldWr fid i j) s = .next { s with f := s.f.write fid i j v.toNat, responses := ⟨.ok, 0⟩ :: s.responses } :=
  (State.withInteger_int hv _).trans
    (congrArg _ ((if_neg h).trans ((if_neg (Nat.not_le.mpr hw)).trans (State.complete_withF _))))

end Sys2Proof.Machine
end

