-- ==== Sys2Proof/Laws/PerInstr.lean ====
section
/-!
SUPPORT. The statements made per instruction (LAWS.json): decoding the word of a well-formed instruction gives it back (30_encoding.md
rules R95 and R96).
-/

namespace Sys2Proof.Laws.EncodeDecode

/-- Decode of encode is the instruction, with every operand at every value its field admits. -/
def Statement (i : Instr) : Prop := WellFormed i → decode (encode i) = .ok i

/-- The FID of a field names it. -/
theorem ofBits_bits (fid : FieldId) : FieldId.ofBits fid.bits = some fid := by cases fid <;> rfl

section FormatB

variable (op : BitVec 4) (a b : Nat)

theorem opField_wordB : opField (wordB op a b) = op := by
  unfold opField wordB
  ext i hi
  simp only [BitVec.getElem_extractLsb', BitVec.getLsbD_append]
  interval_cases i <;> simp [BitVec.getLsbD_eq_getElem]

theorem offField_wordB : offField (wordB op a b) = BitVec.ofNat 12 a := by
  unfold offField wordB
  ext i hi
  simp only [BitVec.getElem_extractLsb', BitVec.getLsbD_append]
  interval_cases i <;> simp

theorem lenField_wordB : lenField (wordB op a b) = BitVec.ofNat 12 b := by
  unfold lenField wordB
  ext i hi
  simp only [BitVec.getElem_extractLsb', BitVec.getLsbD_append]
  interval_cases i <;> simp

theorem reserved_wordB : wordB op a b &&& Format.B.rsvMask = 0 := by
  unfold wordB Format.rsvMask
  ext i hi
  simp only [BitVec.getElem_and, BitVec.getElem_append]
  interval_cases i <;> simp

end FormatB

section FormatF

variable (op : BitVec 4) (fid : FieldId) (a b : Nat)

theorem opField_wordF : opField (wordF op fid a b) = op := by
  unfold opField wordF
  ext i hi
  simp only [BitVec.getElem_extractLsb', BitVec.getLsbD_append]
  interval_cases i <;> simp [BitVec.getLsbD_eq_getElem]

theorem fidField_wordF : fidField (wordF op fid a b) = fid.bits := by
  unfold fidField wordF
  ext i hi
  simp only [BitVec.getElem_extractLsb', BitVec.getLsbD_append]
  interval_cases i <;> simp [BitVec.getLsbD_eq_getElem]

theorem iField_wordF : iField (wordF op fid a b) = BitVec.ofNat 4 a := by
  unfold iField wordF
  ext i hi
  simp only [BitVec.getElem_extractLsb', BitVec.getLsbD_append]
  interval_cases i <;> simp

theorem jField_wordF : jField (wordF op fid a b) = BitVec.ofNat 4 b := by
  unfold jField wordF
  ext i hi
  simp only [BitVec.getElem_extractLsb', BitVec.getLsbD_append]
  interval_cases i <;> simp

theorem reserved_wordF : wordF op fid a b &&& Format.F.rsvMask = 0 := by
  unfold wordF Format.rsvMask
  ext i hi
  simp only [BitVec.getElem_and, BitVec.getElem_append]
  interval_cases i <;> simp

end FormatF

section DecodeWords

variable (a b : Nat)

/-- A word of format B whose opcode is `o` decodes to that command's operands. -/
theorem decode_wordB {op : BitVec 4} {o : Opcode} (ho : Opcode.ofBits op = some o) (hf : o.format = .B) :
    decode (wordB op a b) = decodeOperands o (wordB op a b) := by
  simp only [decode, opField_wordB, ho, hf, reserved_wordB, ne_eq, not_true_eq_false, if_false]

/-- A word of format F whose opcode is `o` decodes to that command's operands. -/
theorem decode_wordF {op : BitVec 4} {o : Opcode} (ho : Opcode.ofBits op = some o) (hf : o.format = .F) (fid : FieldId) :
    decode (wordF op fid a b) = decodeOperands o (wordF op fid a b) := by
  simp only [decode, opField_wordF, ho, hf, reserved_wordF, ne_eq, not_true_eq_false, if_false]

theorem range_operands {a b : Nat} (h : rangeOperandsFit a b = true) :
    (BitVec.ofNat 12 a).toNat = a ∧ (BitVec.ofNat 12 b).toNat = b := by
  simp only [rangeOperandsFit, Bool.and_eq_true, decide_eq_true_eq] at h
  simp only [BitVec.toNat_ofNat]
  omega

theorem index_operands {a b : Nat} (h : indexOperandsFit a b = true) :
    (BitVec.ofNat 4 a).toNat = a ∧ (BitVec.ofNat 4 b).toNat = b := by
  simp only [indexOperandsFit, Bool.and_eq_true, decide_eq_true_eq] at h
  simp only [BitVec.toNat_ofNat]
  omega

end DecodeWords

theorem bbRead (off len : Nat) : Statement (.bbRead off len) := by
  intro h
  obtain ⟨h1, h2⟩ := range_operands h
  rw [encode, decode_wordB off len (o := .bbRead) rfl rfl, decodeOperands, offField_wordB, lenField_wordB, h1, h2]

theorem bbWrite (off len : Nat) : Statement (.bbWrite off len) := by
  intro h
  obtain ⟨h1, h2⟩ := range_operands h
  rw [encode, decode_wordB off len (o := .bbWrite) rfl rfl, decodeOperands, offField_wordB, lenField_wordB, h1, h2]

theorem recLoad : Statement .recLoad := fun _ => by decide

theorem layout (fid : FieldId) : Statement (.layout fid) := fun _ => by cases fid <;> decide

theorem itemEnc : Statement .itemEnc := fun _ => by decide

theorem itemDec : Statement .itemDec := fun _ => by decide

theorem rankEnc : Statement .rankEnc := fun _ => by decide

theorem rankDec : Statement .rankDec := fun _ => by decide

theorem recDecode : Statement .recDecode := fun _ => by decide

theorem recEncode : Statement .recEncode := fun _ => by decide

theorem recClear : Statement .recClear := fun _ => by decide

theorem fieldRd (fid : FieldId) (i j : Nat) : Statement (.fieldRd fid i j) := by
  intro h
  obtain ⟨h1, h2⟩ := index_operands h
  rw [encode, decode_wordF i j (o := .fieldRd) rfl rfl, decodeOperands, withField, fidField_wordF, ofBits_bits,
    iField_wordF, jField_wordF, h1, h2]

theorem fieldWr (fid : FieldId) (i j : Nat) : Statement (.fieldWr fid i j) := by
  intro h
  obtain ⟨h1, h2⟩ := index_operands h
  rw [encode, decode_wordF i j (o := .fieldWr) rfl rfl, decodeOperands, withField, fidField_wordF, ofBits_bits,
    iField_wordF, jField_wordF, h1, h2]

end Sys2Proof.Laws.EncodeDecode
end

