-- ==== Sys2Proof/Tests/Slice0.lean ====
section
/-!
SUPPORT. The model's own tests: ill-formed instructions, command words written out bit by bit, single steps whose expected results
are the spec's (95_test_vectors.md and the examples of the command rules), and, for every statement with hypotheses, a state and
operands that meet them.
-/

namespace Sys2Proof.Machine.Tests

open Sys2Proof

-- One test at a time: the kernel evaluates most of them, and waiting for it in parallel takes memory and gains nothing.
set_option Elab.async false

/-- The reset state with a data operand on the port. -/
def withDin (d : Din) : State := { State.reset with din := d }

/-- A state in which the host presents one command. -/
def presenting (s : State) (w : Word) (d : Din) : State := { s with inputs := [.command w d] }

/-- The state one step later. -/
def after (s : State) : State :=
  match step s with
  | .next t => t
  | .fault _ => s
  | .refused _ => s

/-- STATUS and DOUT of one command. -/
def answer (s : State) (w : Word) (d : Din) : Option (Status × Nat) :=
  (after (presenting s w d)).responses.head?.map fun r => (r.status, r.dout.toNat)

/-- FAULT_KIND, FAULT_CMD and BUF after one command. -/
def record (s : State) (w : Word) (d : Din) : BitVec 4 × Word × Memory :=
  ((after (presenting s w d)).faultKind, (after (presenting s w d)).faultCmd, (after (presenting s w d)).buf)

/-- A state whose BUF holds the bytes listed. -/
def holding (m : Memory) : State := { State.reset with buf := m }

/-- A state with one element of F written. -/
def field (fid : FieldId) (i j v : Nat) : State := { State.reset with f := Fields.zero.write fid i j v }

section Form

theorem test_off_too_wide_bbRead : ¬WellFormed (.bbRead 4096 0) := by decide
theorem test_len_too_wide_bbRead : ¬WellFormed (.bbRead 0 4096) := by decide
theorem test_off_too_wide_bbWrite : ¬WellFormed (.bbWrite 4096 0) := by decide
theorem test_len_too_wide_bbWrite : ¬WellFormed (.bbWrite 0 4096) := by decide
theorem test_i_too_wide_fieldRd : ¬WellFormed (.fieldRd .version 16 0) := by decide
theorem test_j_too_wide_fieldRd : ¬WellFormed (.fieldRd .version 0 16) := by decide
theorem test_i_too_wide_fieldWr : ¬WellFormed (.fieldWr .version 16 0) := by decide
theorem test_j_too_wide_fieldWr : ¬WellFormed (.fieldWr .version 0 16) := by decide
theorem test_widest_operands : WellFormed (.bbWrite 4095 4095) ∧ WellFormed (.fieldWr .version 15 15) := by decide

end Form

section Words

/-! The formats are those of R82 to R85, and the opcodes those of R90. -/

theorem test_word_bbRead : decode 0b0001_110100111111_000000000001_0000#32 = .ok (.bbRead 3391 1) := rfl
theorem test_word_bbWrite : decode 0b0010_000000000110_000000000100_0000#32 = .ok (.bbWrite 6 4) := rfl
theorem test_word_recLoad : decode 0b0011_0000000000000000000000000000#32 = .ok .recLoad := rfl
theorem test_word_layout : decode 0b0100_0101_000000000000000000000000#32 = .ok (.layout .benchUnitItems) := rfl
theorem test_word_itemEnc : decode 0b0101_0000000000000000000000000000#32 = .ok .itemEnc := rfl
theorem test_word_itemDec : decode 0b0110_0000000000000000000000000000#32 = .ok .itemDec := rfl
theorem test_word_rankEnc : decode 0b0111_0000000000000000000000000000#32 = .ok .rankEnc := rfl
theorem test_word_rankDec : decode 0b1000_0000000000000000000000000000#32 = .ok .rankDec := rfl
theorem test_word_recDecode : decode 0b1001_0000000000000000000000000000#32 = .ok .recDecode := rfl
theorem test_word_recEncode : decode 0b1010_0000000000000000000000000000#32 = .ok .recEncode := rfl
theorem test_word_recClear : decode 0b1011_0000000000000000000000000000#32 = .ok .recClear := rfl
theorem test_word_fieldRd :
    decode 0b1100_0011_1111_0001_0000000000000000#32 = .ok (.fieldRd .selectedTalents 15 1) := rfl
theorem test_word_fieldWr : decode 0b1101_1010_0111_0001_0000000000000000#32 = .ok (.fieldWr .unequippedItems 7 1) := rfl

/-- R91, R92 and R93, on words of V-FAULT and V-FIELD. -/
theorem test_illegal_words :
    decode 0x00000000 = .error .reservedOpcode ∧ decode 0xE0000000 = .error .reservedOpcode ∧
      decode 0xF0000000 = .error .reservedOpcode ∧ decode 0x1000000F = .error .reservedBits ∧
      decode 0x90000001 = .error .reservedBits ∧ decode 0xCF000001 = .error .reservedBits ∧
      decode 0xCB000000 = .error .noSuchField ∧ decode 0xDB000000 = .error .noSuchField ∧
      decode 0x4B000000 = .error .noSuchField :=
  ⟨rfl, rfl, rfl, rfl, rfl, rfl, rfl, rfl, rfl⟩

/-- The words of R96 and R100. -/
theorem test_encode :
    encode (.bbRead 872 24) = 0x13680180 ∧ encode (.fieldWr .unitItems 4 4) = 0xD1440000 ∧ encode recStore = 0x1000D400 := by
  decide

/-- R99: decimal and hexadecimal numbers, a FID number, operands left out, a comment and a byte sequence. -/
theorem test_assemble :
    assemble "BB_WRITE 0x6, 4 ; DIN=0xF  # a comment".toList = some (.command 0x20060040 (.int 15)) ∧
      assemble "FIELD_RD 9, 1".toList = some (.command 0xC9100000 (.int 0)) ∧
      assemble "REC_LOAD ; DIN=[1, 0xFF]".toList = some (.command 0x30000000 (.bytes [1, 255])) := by
  decide +kernel

/-- notes/assumptions/12.md, the model's choice: BYTE_RD above byte 423 expands by R100's formula while OFF holds 8n. -/
theorem test_assemble_byteRd_past_end :
    assemble "BYTE_RD 423".toList = some (.command 0x1D380080 (.int 0)) ∧
      assemble "BYTE_RD 424".toList = some (.command 0x1D400080 (.int 0)) ∧ assemble "BYTE_RD 512".toList = none := by
  decide +kernel

/-- R99: a letter is a digit after 0x alone, and a number has a digit. -/
theorem test_number : number "0xfF".toList = some 255 ∧ number "1f".toList = none ∧ number "0x".toList = none ∧
    number "12".toList = some 12 ∧ number "0".toList = some 0 ∧ number [] = none := by decide +kernel

end Words

section Steps

/-- R111: after 0xAB in byte 0, BB_READ 0, 4 returns 0xA. -/
theorem test_bbRead : answer (holding [(0, 0xAB)]) 0x10000040 (.int 0) = some (.ok, 0xA) := by decide +kernel

/-- R111: BB_READ 3393, 0 faults. -/
theorem test_bbRead_past_end : answer State.reset 0x1D410000 (.int 0) = some (.fault .bitRangeOutOfBounds, 0) := by
  decide +kernel

/-- R114: on a zero buffer, BB_WRITE 6, 4 of 0xF leaves bytes 0x03 and 0xC0. -/
theorem test_bbWrite : (after (presenting State.reset 0x20060040 (.int 0xF))).buf = [(0, 0x03), (1, 0xC0)] := by
  decide +kernel

/-- R114: LEN = 0 with a DIN of 1 raises VALUE_TOO_WIDE. -/
theorem test_bbWrite_too_wide : answer State.reset 0x20000000 (.int 1) = some (.fault .valueTooWide, 0) := by decide +kernel

/-- R116: byte k of DIN is record byte k. -/
theorem test_recLoad :
    (after (presenting (holding [(5, 9)]) 0x30000000 (.bytes (0xE3 :: List.replicate 422 0 ++ [7])))).buf =
      [(0, 0xE3), (423, 7)] := by decide +kernel

/-- V-FAULT: 423 bytes raise UNEXPECTED_RECORD_LENGTH, and P4: nothing is written. -/
theorem test_recLoad_short :
    record State.reset 0x30000000 (.bytes (List.replicate 423 0xAA)) = (5, 0x30000000, []) := by decide +kernel

/-- R135: LAYOUT unitItems returns 0x000100C0. -/
theorem test_layout : answer State.reset 0x41000000 (.int 0) = some (.ok, 0x000100C0) := by decide +kernel

/-- R135: FID 10 returns (364, 60). -/
theorem test_layout_unequipped : answer State.reset 0x4A000000 (.int 0) = some (.ok, 364 * 65536 + 60) := by decide +kernel

/-- R152: 10211 gives 0xE32700. -/
theorem test_itemEnc : answer State.reset 0x50000000 (.int 10211) = some (.ok, 0xE32700) := by decide +kernel

/-- R154: 0x0102FF gives 513. -/
theorem test_itemDec : answer State.reset 0x60000000 (.int 0x0102FF) = some (.ok, 513) := by decide +kernel

/-- R172: ranks [0,0,1,0,3,0,0,2] give 0x00010320. -/
theorem test_rankEnc : answer State.reset 0x70000000 (.int 0x0200000300010000) = some (.ok, 0x00010320) := by decide +kernel

/-- R174: 0xFFFFFFFF gives eight lanes of 23. -/
theorem test_rankDec : answer State.reset 0x80000000 (.int 0xFFFFFFFF) = some (.ok, 0x1717171717171717) := by decide +kernel

/-- V-RANK: a nibble of 9 at position 3 gives a rank of 17. -/
theorem test_rankDec_divergent : answer State.reset 0x80000000 (.int 0x00900000) = some (.ok, 0x11000000) := by
  decide +kernel

/-- T1: bytes 109 and 110 decode to unitItems[4][4] = 10211. -/
theorem test_recDecode_item :
    (after (presenting (holding [(109, 0xE3), (110, 0x27)]) 0x90000000 (.int 0))).f = (field .unitItems 4 4 10211).f := by
  decide +kernel

/-- V-REC: byte 292 of 0x08 decodes to unitRanks[0][0] = 16, and the gap byte 290 to nothing. -/
theorem test_recDecode_rank :
    (after (presenting (holding [(290, 0x55), (292, 0x08)]) 0x90000000 (.int 0))).f = (field .unitRanks 0 0 16).f := by
  decide +kernel

/-- R209: unitItems[4][4] = 10211 encodes to record bytes E3 27 00. -/
theorem test_recEncode_item :
    (after (presenting { field .unitItems 4 4 10211 with buf := [(3, 0xFF)] } 0xA0000000 (.int 0))).buf =
      [(109, 0xE3), (110, 0x27)] := by decide +kernel

/-- P3: benchUnitRanks[3] = 9 packs to 0x00900000. -/
theorem test_recEncode_rank :
    (after (presenting (field .benchUnitRanks 3 0 9) 0xA0000000 (.int 0))).buf = [(357, 0x90)] := by decide +kernel

/-- R205: every element is 0, and BUF stays. -/
theorem test_recClear : after { field .underlordIDs 1 0 4 with buf := [(0, 1)], inputs := [.command 0xB0000000 (.int 0)] } =
    { holding [(0, 1)] with cmd := 0xB0000000, responses := [⟨.ok, 0⟩] } := by decide +kernel

/-- R207: underlordRanks, 1 reads what it holds. -/
theorem test_fieldRd : answer (field .underlordRanks 1 0 6) 0xC9100000 (.int 0) = some (.ok, 6) := by decide +kernel

/-- V-FIELD: FIELD_RD version, 1, 0 raises INDEX_OUT_OF_RANGE. -/
theorem test_fieldRd_index : answer State.reset 0xC0100000 (.int 0) = some (.fault .indexOutOfRange, 0) := by decide +kernel

/-- V-FIELD: FIELD_WR unitItems, 4, 4 of 10211. -/
theorem test_fieldWr : (after (presenting State.reset 0xD1440000 (.int 10211))).f.read .unitItems 4 4 = 10211 := by
  decide +kernel

/-- V-FIELD: the index is checked before the width. -/
theorem test_fieldWr_priority : answer State.reset 0xD0100000 (.int 999) = some (.fault .indexOutOfRange, 0) := by
  decide +kernel

/-- V-FAULT: a reserved opcode records ILLEGAL_COMMAND and the word. -/
theorem test_illegal : record State.reset 0xE0000000 (.int 0) = (1, 0xE0000000, []) := by decide +kernel

/-- R260: the reset input. -/
theorem test_reset : after { holding [(0, 1)] with faultKind := 4, inputs := [.reset] } = State.reset := by decide +kernel

theorem test_reset_memory_canonical : State.reset.buf.wf = true := by decide

/-- A byte of 0 is not listed, so equal memories are equal lists. -/
theorem test_write_canonical : Memory.write [(0, 1), (2, 3)] 0 0 = [(2, 3)] ∧ Memory.write [(2, 3)] 0 1 = [(0, 1), (2, 3)] := by
  decide

end Steps

section Witnesses

/-! One theorem per statement with hypotheses: a state and operands that meet them, for each clause at a boundary of its range. -/

theorem witness_DecodeOfEncodeIsTheInstruction :
    WellFormed (.bbRead 4095 4095) ∧ WellFormed (.bbWrite 0 0) ∧ WellFormed (.fieldRd .unequippedItems 15 15) ∧
      WellFormed (.fieldWr .version 0 0) := by decide

theorem witness_CommandWordsAreBuiltByFormat : 4095 < 4096 ∧ 0 < 4096 ∧ 15 < 16 ∧ 0 < 16 := by decide

theorem witness_DecodedWordIsTheEncoding :
    decode 0x1FFFFFF0 = .ok (.bbRead 4095 4095) ∧ decode 0xDAFF0000 = .ok (.fieldWr .unequippedItems 15 15) := ⟨rfl, rfl⟩

theorem witness_EveryWordIsIllegalOrACommand :
    (illegalWord 0x0FFFFFFF ∧ illegalWord 0xE0000000 ∧ illegalWord 0xFFFFFFFF) ∧
      (illegalWord 0x10000001 ∧ illegalWord 0x2FFFFFF8 ∧ illegalWord 0xC0000001 ∧ illegalWord 0xD0008000 ∧
        illegalWord 0x40800000 ∧ illegalWord 0x38000000 ∧ illegalWord 0xB0000001) ∧
      (illegalWord 0xCB000000 ∧ illegalWord 0xDF000000 ∧ illegalWord 0x4B000000) ∧
      (¬illegalWord 0x10000000 ∧ ¬illegalWord 0xCAFF0000 ∧ ¬illegalWord 0x4A000000 ∧ ¬illegalWord 0xB0000000) := by
  simp [illegalWord]

theorem witness_StepRunsTheDecodedInstruction :
    (presenting State.reset 0xCAFF0000 (.int 0)).inputs = .command 0xCAFF0000 (.int 0) :: [] ∧
      decode 0xCAFF0000 = .ok (.fieldRd .unequippedItems 15 15) := ⟨rfl, rfl⟩

theorem witness_FetchWordRunsNext :
    decodeTableWord 32 0x30000000 = some .recLoad ∧ decodeTableWord 32 0xA0000000 = some .recEncode := ⟨rfl, rfl⟩

theorem witness_HoldsBetweenCommands : (field .unitRanks 0 0 255).inputs = [] := rfl

theorem witness_ResetInputClearsEverything :
    ({ field .unitRanks 7 7 9 with faultKind := 5, inputs := [.reset, .reset] } : State).inputs = .reset :: [.reset] ∧
      3391 < 3392 ∧ ¬indexOutOfRange .selectedTalents 15 1 ∧ ¬indexOutOfRange .version 0 0 := by decide

/-- A command that faults, and one that does not. -/
theorem witness_FaultEntryChangesNothingElse :
    (presenting State.reset 0xC2800000 (.int 0)).inputs = .command 0xC2800000 (.int 0) :: [] ∧
      answer State.reset 0xC2800000 (.int 0) = some (.fault .indexOutOfRange, 0) ∧
      answer State.reset 0xC0000000 (.int 0) = some (.ok, 0) := by decide +kernel

/-- Each kind that the block raises, by a command that raises it. -/
theorem witness_FaultKindsOfEachCommand :
    answer State.reset 0x90000000 (.bytes [1]) = some (.fault .illegalCommand, 0) ∧
      answer State.reset 0xD2080000 (.int 0) = some (.fault .indexOutOfRange, 0) ∧
      answer State.reset 0x2D400010 (.int 0) = some (.fault .bitRangeOutOfBounds, 0) ∧
      answer State.reset 0x60000000 (.int 0x1000000) = some (.fault .valueTooWide, 0) ∧
      answer State.reset 0x30000000 (.bytes []) = some (.fault .unexpectedRecordLength, 0) := by decide +kernel

/-- An illegal word, an integer for REC_LOAD, and a byte sequence for each other command. -/
theorem witness_IllegalCommandsFault :
    (presenting State.reset 0 (.int 0)).inputs = .command 0 (.int 0) :: [] ∧ illegalWord 0 ∧ wrongKind 0x30000000 (.int 5) ∧
      wrongKind 0x10000000 (.bytes []) ∧ wrongKind 0xD0000000 (.bytes [1]) := by
  refine ⟨rfl, ?_, ?_, ?_, ?_⟩ <;> simp [illegalWord, wrongKind]

theorem witness_WrongKindOfDinFaults :
    (withDin (.bytes [1])).din = .bytes [1] ∧ Instr.recDecode ≠ .recLoad ∧ (withDin (.int 5)).din = .int 5 := by decide +kernel

/-- Each clause's two conditions at once. -/
theorem witness_FaultPriority :
    illegalWord 0x1D4100F1 ∧ (withDin (.int 999)).din = .int 999 ∧ indexOutOfRange .version 1 0 ∧
      tooWide 999 FieldId.version.width ∧ (withDin (.int 2)).din = .int 2 ∧ 3392 < 3392 + 1 ∧ tooWide 2 1 ∧
      raises (.bbWrite 0 1) .bitRangeOutOfBounds = true ∧ raises (.bbWrite 0 1) .valueTooWide = true := by
  refine ⟨by simp [illegalWord], rfl, by decide, by decide +kernel, rfl, by decide, by decide +kernel, rfl, rfl⟩

/-- A step that changes BUF, for each of the writers: BB_WRITE, REC_LOAD, REC_ENCODE and reset. -/
theorem witness_BufChangesOnlyByItsWriters :
    (after (presenting State.reset 0x20000010 (.int 1))).buf = [(0, 0x80)] ∧
      (after (presenting State.reset 0x30000000 (.bytes (List.replicate 423 0 ++ [7])))).buf = [(423, 7)] ∧
      (after (presenting (holding [(3, 1)]) 0xA0000000 (.int 0))).buf = [] ∧
      (after { holding [(3, 1)] with inputs := [.reset] }).buf = [] := by decide +kernel

/-- A step that changes F, for each of the writers: FIELD_WR, REC_DECODE, REC_CLEAR and reset. -/
theorem witness_FieldsChangeOnlyByTheirWriters :
    (after (presenting State.reset 0xD0000000 (.int 255))).f ≠ Fields.zero ∧
      (after (presenting (holding [(0, 1)]) 0x90000000 (.int 0))).f ≠ Fields.zero ∧
      (after (presenting (field .version 0 0 1) 0xB0000000 (.int 0))).f ≠ (field .version 0 0 1).f ∧
      (after { field .version 0 0 1 with inputs := [.reset] }).f ≠ (field .version 0 0 1).f := by decide +kernel

/-- A faulted run meets the invariant, and so does the reset state. -/
theorem witness_EveryStepKeepsTheInvariant :
    ({ holding [(423, 1)] with faultKind := 5, responses := [⟨.ok, 9⟩, ⟨.fault .unexpectedRecordLength, 0⟩] } : State).Inv :=
  ⟨by decide +kernel, by decide, by decide +kernel, by decide +kernel⟩

theorem witness_PositionsAreMostSignificantFirst : 0 < 8 ∧ 7 < 8 := by decide

/-- BB_READ 3392, 0 and BB_READ 3391, 1 are in bounds; BB_READ 3393, 0 and BB_READ 3392, 1 are not (R111). -/
theorem witness_BbReadReturnsTheRange :
    (withDin (.int 0)).din = .int 0 ∧ (3392 + 0 ≤ 3392 ∧ 3391 + 1 ≤ 3392 ∧ 0 + 3392 ≤ 3392) ∧ 3392 < 3393 + 0 ∧ 3392 < 3392 + 1 := by
  decide +kernel

/-- The widest value, a value one above it, and a range one past the end (R114). -/
theorem witness_BbWriteStoresTheRange :
    (withDin (.int 15)).buf.wf = true ∧ (withDin (.int 15)).din = .int 15 ∧
      (3388 + 4 ≤ 3392 ∧ (15 : Data).toNat < 2 ^ 4) ∧ 3392 < 3389 + 4 ∧ (3389 + 3 ≤ 3392 ∧ 2 ^ 3 ≤ (15 : Data).toNat) := by
  decide +kernel

/-- Disjoint ranges that touch the written one on either side. -/
theorem witness_ReadAfterWrite :
    (withDin (.int 15)).buf.wf = true ∧ (withDin (.int 15)).din = .int 15 ∧ 4 + 4 ≤ 3392 ∧ (15 : Data).toNat < 2 ^ 4 ∧
      (0 + 4 ≤ 3392 ∧ 0 + 4 ≤ 4) ∧ (8 + 3384 ≤ 3392 ∧ 4 + 4 ≤ 8) := by decide +kernel

/-- The widest word operands of formats B and F, for the encoding clauses of the commands. -/
theorem witness_word_operands : 0 < 4096 ∧ 4095 < 4096 ∧ 0 < 16 ∧ 15 < 16 := by decide

/-- A word of the same opcode with an RSV bit set, for each command of format N. -/
theorem witness_sole_words :
    [((0x30000000 : Word), (0x30000001 : Word)), (0x50000000, 0x58000000), (0x60000000, 0x60000010), (0x70000000, 0x70FF0000),
      (0x80000000, 0x80000001), (0x90000000, 0x90000001), (0xA0000000, 0xAFFFFFFF), (0xB0000000, 0xB0000100)].all
      (fun e => decide (e.2.toNat / 2 ^ 28 = e.1.toNat / 2 ^ 28 ∧ e.2 ≠ e.1)) = true := by decide +kernel

/-- A FID of 11 and a set RSV bit, for each command of formats L and F; and a port that carries such a word. -/
theorem witness_illegal_fields :
    (∀ e ∈ [((0x4B000000 : Word), (0x4A000001 : Word), 0x4, 24), (0xCB000000, 0xC0008000, 0xC, 16), (0xDF000000, 0xDAFF0001, 0xD, 16)],
      e.1.toNat / 2 ^ 28 = e.2.2.1 ∧ 11 ≤ e.1.toNat / 2 ^ 24 % 16 ∧ e.2.1.toNat / 2 ^ 28 = e.2.2.1 ∧
        e.2.1.toNat % 2 ^ e.2.2.2 ≠ 0) ∧
      (presenting State.reset 0x4B000000 (.int 0)).inputs = .command 0x4B000000 (.int 0) :: [] := by decide +kernel

theorem witness_ByteRangesReadBigEndian : (withDin (.int 0)).din = .int 0 ∧ 8 * 360 + 8 * 64 ≤ 3392 ∧ 63 < 64 := by decide +kernel

/-- 424 bytes, and 423, 425 and none. -/
theorem witness_RecLoadPlacesTheRecord :
    (withDin (.bytes (List.replicate 424 7))).buf.wf = true ∧ (List.replicate 424 (7 : Byte)).length = 424 ∧
      (List.replicate 423 (7 : Byte)).length ≠ 424 ∧ (List.replicate 425 (7 : Byte)).length ≠ 424 ∧
      ([] : List Byte).length ≠ 424 := by decide +kernel

theorem witness_StoreReturnsTheLoadedRecord :
    (withDin (.bytes (List.replicate 424 7))).buf.wf = true ∧ (List.replicate 424 (7 : Byte)).length = 424 := by decide +kernel

/-- An integer DIN: all that the layout and whole-record statements ask. -/
theorem witness_integer_din : (withDin (.int 1)).din = .int 1 := rfl

/-- ITEM_ENC of 65535 runs, and of 65536 faults. -/
theorem witness_ItemEncPacksTheId :
    (withDin (.int 65535)).din = .int 65535 ∧ (65535 : Data).toNat < 2 ^ 16 ∧ (withDin (.int 65536)).din = .int 65536 ∧
      2 ^ 16 ≤ (65536 : Data).toNat := by decide +kernel

/-- ITEM_DEC of 0xFFFFFF runs, and of 2^24 faults. -/
theorem witness_ItemDecUnpacksTheSlot :
    (withDin (.int 0xFFFFFF)).din = .int 0xFFFFFF ∧ (0xFFFFFF : Data).toNat < 2 ^ 24 ∧
      (withDin (.int 0x1000000)).din = .int 0x1000000 ∧ 2 ^ 24 ≤ (0x1000000 : Data).toNat := by decide +kernel

/-- The slot of the id 10211 stands on the port for ITEM_DEC, and the id for ITEM_ENC. -/
theorem witness_ItemSlotRoundTrip :
    (withDin (.int 10211)).din = .int 10211 ∧ (10211 : Data).toNat < 2 ^ 16 ∧ (10211 : Data).toNat < 2 ^ 24 ∧
      answer State.reset 0x50000000 (.int 10211) = some (.ok, (0xE32700 : Data).toNat) ∧
      (withDin (.int 0xE32700)).din = .int 0xE32700 := by decide +kernel

theorem witness_RankEncPacksTheLanes :
    (withDin (.int 0xFFFFFFFFFFFFFFFF)).din = .int 0xFFFFFFFFFFFFFFFF ∧ (0xFFFFFFFFFFFFFFFF : Data).toNat < 2 ^ 64 ∧
      2 ^ 64 ≤ (0x10000000000000000 : Data).toNat := by decide +kernel

theorem witness_RankDecUnpacksTheNibbles :
    (withDin (.int 0xFFFFFFFF)).din = .int 0xFFFFFFFF ∧ (0xFFFFFFFF : Data).toNat < 2 ^ 32 ∧
      2 ^ 32 ≤ (0x100000000 : Data).toNat := by decide +kernel

/-- Ranks of 7 in every lane, and ranks of 8 and 15, at the ends of the divergent range. -/
theorem witness_RankRoundTripAndDivergence :
    (withDin (.int 0x0707070707070707)).din = .int 0x0707070707070707 ∧ (0x0707070707070707 : Data).toNat < 2 ^ 64 ∧
      (∀ j < 8, (0x0707070707070707 : Data).toNat / 2 ^ (8 * j) % 256 ≤ 7) ∧
      8 ≤ (0x0F08 : Data).toNat / 2 ^ (8 * 0) % 256 ∧ (0x0F08 : Data).toNat / 2 ^ (8 * 1) % 256 ≤ 15 := by decide +kernel

theorem witness_CodecCommandsArePure :
    Instr.rankDec ∈ [Instr.itemEnc, .itemDec, .rankEnc, .rankDec] ∧
      (withDin (.int 9)).din = ({ field .unitRanks 0 0 9 with din := .int 9 } : State).din := by decide +kernel

/-- Two BUF contents that differ in reserved bytes alone: 3, 290 and 423. -/
theorem witness_ReservedBytesDoNotDecode :
    (withDin (.int 0)).din = .int 0 ∧ ∀ a < 424, reservedByte a = false →
      Memory.read [(3, 0xFF), (109, 0xE3), (290, 0x55), (423, 1)] a = Memory.read [(109, 0xE3)] a := by decide +kernel

theorem witness_RecEncodeZeroesReservedBytes : reservedByte 3 = true ∧ reservedByte 289 = true ∧ reservedByte 423 = true := by decide

/-- An F whose ranks are all at most 7, with an element of each kind the clauses name. -/
theorem witness_RecordRoundTrip :
    (withDin (.int 0)).din = .int 0 ∧ ¬indexOutOfRange .unequippedItems 7 1 ∧ ¬indexOutOfRange .unitRanks 7 7 ∧
      ∀ i < 8, ∀ j < 8, (field .unitRanks 7 7 7).f.read .unitRanks i j ≤ 7 ∧ (field .unitRanks 7 7 7).f.read .benchUnitRanks i 0 ≤ 7 := by
  decide +kernel

/-- A reserved byte, the first and last bytes of the packed rank fields, and a byte that comes back unchanged. -/
theorem witness_RecordReencodingIsLossyOnlyThere :
    reservedByte 3 = true ∧ (292 ≤ 292 ∧ 323 < 324) ∧ (356 ≤ 356 ∧ 359 < 360) ∧ reservedByte 411 = true ∧
      reservedByte 410 = false ∧ ¬((292 ≤ 410 ∧ 410 < 324) ∨ (356 ≤ 410 ∧ 410 < 360)) := by decide

/-- The largest item id, and a rank of 7 with another element beside it. -/
theorem witness_FieldIsolation :
    (withDin (.int 65535)).din = .int 65535 ∧ ¬indexOutOfRange .unitItems 7 7 ∧ (65535 : Data).toNat < 2 ^ FieldId.unitItems.width ∧
      (7 : Data).toNat < 2 ^ FieldId.unitRanks.width ∧ (7 : Data).toNat ≤ 7 ∧ ¬indexOutOfRange .unitRanks 0 0 := by decide +kernel

/-- Indexes at and past the dims of each field. -/
theorem witness_FieldRdReturnsTheElement :
    (withDin (.int 0)).din = .int 0 ∧ (15 < 16 ∧ 1 < 2) ∧ (2 ≤ 2 ∨ 1 ≤ 0) ∧ (16 ≤ 0 ∨ 2 ≤ 2) := by decide +kernel

/-- The widest values, values one above, and indexes past the dims. -/
theorem witness_FieldWrWritesTheElement :
    (withDin (.int 255)).din = .int 255 ∧ (255 : Data).toNat < 2 ^ 8 ∧ (withDin (.int 65536)).din = .int 65536 ∧
      2 ^ 16 ≤ (65536 : Data).toNat ∧ (1 ≤ 1 ∨ 1 ≤ 0) := by decide +kernel

end Witnesses

end Sys2Proof.Machine.Tests
end

section
/-!
SUPPORT. What one step can do, said once (R251, R252, R260); and which steps change BUF (R22).
-/

namespace Sys2Proof.Machine

/-- What a step does: the block waits (R252), takes reset (R260), performs the host's command, or faults on a word that is no
command (R232). -/
inductive Moves (s : State) : State → Prop where
  | waits (hin : s.inputs = []) : Moves s s
  | resets {rest : List HostInput} (hin : s.inputs = .reset :: rest) : Moves s (State.assertReset rest)
  | performs {w : Word} {d : Din} {rest : List HostInput} {i : Instr} {t : State} (hin : s.inputs = .command w d :: rest)
      (hi : decode w = .ok i) (ht : Ends i (s.present w d rest) t) : Moves s t
  | refusesWord {w : Word} {d : Din} {rest : List HostInput} {e : DecodeError} (hin : s.inputs = .command w d :: rest)
      (he : decode w = .error e) : Moves s ((s.present w d rest).enterFault .illegalCommand)

theorem step_of_no_input {s : State} (h : s.inputs = []) : step s = .next s := by
  simp only [step, h]

theorem step_of_reset {s : State} {rest : List HostInput} (h : s.inputs = .reset :: rest) :
    step s = .next (State.assertReset rest) := by
  simp only [step, h]

section Command

variable {s : State} {w : Word} {d : Din} {rest : List HostInput} (h : s.inputs = .command w d :: rest)

include h

/-- A word that decodes is performed as its instruction (R95). -/
theorem step_of_decode_ok {i : Instr} (hw : decode w = .ok i) : step s = exec i (s.present w d rest) := by
  simp only [step, perform, h, State.present_cmd, hw]

/-- A word that is no command raises ILLEGAL_COMMAND (R232). -/
theorem step_of_decode_error {e : DecodeError} (hw : decode w = .error e) :
    step s = .next ((s.present w d rest).enterFault .illegalCommand) := by
  simp only [step, perform, h, State.present_cmd, hw]

end Command

/-- Every step answers a next state, and moves in one of the four ways. -/
theorem step_moves (s : State) : ∃ t, step s = .next t ∧ Moves s t := by
  cases hin : s.inputs with
  | nil => exact ⟨s, step_of_no_input hin, .waits hin⟩
  | cons input rest =>
    cases input with
    | reset => exact ⟨_, step_of_reset hin, .resets hin⟩
    | command w d =>
      cases hw : decode w with
      | error e => exact ⟨_, step_of_decode_error hin hw, .refusesWord hin hw⟩
      | ok i =>
        obtain ⟨t, hexec, hends⟩ := exec_ends i (s.present w d rest)
        exact ⟨t, (step_of_decode_ok hin hw).trans hexec, .performs hin hw hends⟩

/-- The state a step answers is one it can move to. -/
theorem moves_of_step {s t : State} (h : step s = .next t) : Moves s t := by
  obtain ⟨t', hstep, hmoves⟩ := step_moves s
  obtain rfl : t = t' := Host.Outcome.next.inj (h.symm.trans hstep)
  exact hmoves

/-- A command that may not write BUF leaves it alone, whether it completes or faults. -/
theorem Ends.buf_eq {i : Instr} {s t : State} (h : Ends i s t) (hi : writesBuf i = false) : t.buf = s.buf := by
  cases h with
  | completes m g v hm hb hf => exact hb hi
  | faults k hk => rfl

/-- The commands that may write BUF, by name (R22). -/
theorem writesBuf_iff (i : Instr) :
    writesBuf i = true ↔ (∃ off len, i = .bbWrite off len) ∨ i = .recLoad ∨ i = .recEncode := by
  cases i <;> simp [writesBuf]

/-- Settles O19: of the four moves, only reset and a command that may write BUF leave it other than it was. -/
theorem bufChangesOnlyByItsWriters : Obligations.BufChangesOnlyByItsWriters := by
  intro s t hstep hchanged
  cases moves_of_step hstep with
  | waits _ => exact absurd rfl hchanged
  | resets hin => exact .inl ⟨_, hin⟩
  | performs hin hi hends =>
    have hwrites : writesBuf _ = true :=
      Bool.of_not_eq_false fun hnot => hchanged (hends.buf_eq hnot)
    exact .inr ⟨_, _, _, _, hin, hi, (writesBuf_iff _).mp hwrites⟩
  | refusesWord _ _ => exact absurd rfl hchanged

end Sys2Proof.Machine
end

section
/-!
SUPPORT. The state after reset, observed bit by bit and element by element (R41).
-/

namespace Sys2Proof.Machine

/-- A buffer that lists no byte holds only zero bits (R21). -/
theorem Memory.bit_nil (p : Nat) : Memory.bit [] p = false :=
  BitVec.getLsbD_zero

/-- Settles O12: BUF lists no byte, F is the cleared register file, and the two status registers are 0 as written. -/
theorem resetStateIsAllZero : Obligations.ResetStateIsAllZero :=
  ⟨Memory.bit_nil, Fields.read_zero, rfl, rfl⟩

end Sys2Proof.Machine
end

section
/-!
SUPPORT. Command words by format: format B as R96 builds it, the sole word of format N (R85), and the words and data operands that raise
ILLEGAL_COMMAND (R232).
-/

namespace Sys2Proof.Machine

/-- A word of format B is OP<<28 | OFF<<16 | LEN<<4 (R96). -/
theorem wordB_toNat (op : BitVec 4) {off len : Nat} (hoff : off < 4096) (hlen : len < 4096) :
    (wordB op off len).toNat = op.toNat <<< 28 ||| off <<< 16 ||| len <<< 4 := by
  have hoff' : (BitVec.ofNat 12 off).toNat = off := Nat.mod_eq_of_lt hoff
  have hlen' : (BitVec.ofNat 12 len).toNat = len := Nat.mod_eq_of_lt hlen
  simp only [wordB, BitVec.toNat_append, hoff', hlen', Nat.shiftLeft_or_distrib, ← Nat.shiftLeft_add, BitVec.ofNat_eq_ofNat,
    BitVec.toNat_ofNat, Nat.zero_mod, Nat.or_zero]

/-- The number that R96 builds for format B is that word. -/
theorem ofNat_formatB (op : BitVec 4) {off len : Nat} (hoff : off < 4096) (hlen : len < 4096) :
    BitVec.ofNat 32 (op.toNat <<< 28 ||| off <<< 16 ||| len <<< 4) = wordB op off len := by
  rw [← wordB_toNat op hoff hlen, BitVec.ofNat_toNat, BitVec.setWidth_eq]

theorem rangeOperandsFit_of_lt {off len : Nat} (hoff : off < 4096) (hlen : len < 4096) : rangeOperandsFit off len = true := by
  simp only [rangeOperandsFit, hoff, hlen, decide_true, Bool.and_true]

/-- A command with an RSV bit of its format set does not decode (R92). -/
theorem decode_of_reserved_set {w : Word} {o : Opcode} (ho : Opcode.ofBits (opField w) = some o)
    (hr : w &&& o.format.rsvMask ≠ 0) : decode w = .error .reservedBits := by
  simp only [decode, ho, if_pos hr]

/-- A word that is no command raises ILLEGAL_COMMAND with any data operand (R232). -/
theorem raisesIllegal_of_decode_error {w : Word} {e : DecodeError} (hw : decode w = .error e) (d : Din) : raisesIllegal w d :=
  fun _ _ hin => step_of_decode_error hin hw

/-- A command that refuses its data operand raises ILLEGAL_COMMAND (R87, R232). -/
theorem raisesIllegal_of_exec {w : Word} {d : Din} {i : Instr} (hw : decode w = .ok i)
    (hexec : ∀ s : State, s.din = d → exec i s = .next (s.enterFault .illegalCommand)) : raisesIllegal w d :=
  fun s rest hin => (step_of_decode_ok hin hw).trans (hexec (s.present w d rest) rfl)

/-- Words of equal opcode that differ do so in their low 28 bits. -/
theorem reserved_ne_zero_of_ne {w w' : Word} (hop : w'.toNat / 2 ^ 28 = w.toNat / 2 ^ 28) (hlow : w.toNat % 2 ^ 28 = 0)
    (hne : w' ≠ w) : w'.toNat % 2 ^ 28 ≠ 0 := by
  intro hlow'
  refine hne (BitVec.eq_of_toNat_eq ?_)
  rw [← Nat.div_add_mod w'.toNat (2 ^ 28), hop, hlow', ← hlow, Nat.div_add_mod]

/-- A command of format N has one word: any other of its opcode has an RSV bit set (R85, R92). -/
theorem soleWord_of_formatN {w : Word} {o : Opcode} {i : Instr} (hw : decode w = .ok i)
    (ho : Opcode.ofBits (opField w) = some o) (hN : o.format = .N) (hlow : w.toNat % 2 ^ 28 = 0) : soleWord w i := by
  refine ⟨hw, fun w' d hop hne => ?_⟩
  have hop' : opField w' = opField w := BitVec.eq_of_toNat_eq (by rw [opField_toNat, opField_toNat, hop])
  have hr : w' &&& o.format.rsvMask ≠ 0 := (reserved_set w' _).mpr (by rw [hN]; exact reserved_ne_zero_of_ne hop hlow hne)
  exact raisesIllegal_of_decode_error (decode_of_reserved_set (hop' ▸ ho) hr) d

end Sys2Proof.Machine
end

section
/-!
SUPPORT. BB_READ, BB_WRITE and REC_LOAD (40_bitbuffer.md): the faults they raise, and their whole effect.
-/

namespace Sys2Proof.Machine

section Faults

variable {s : State} {v : Data} {off len : Nat}

/-- BB_READ past the end of BUF (R111). -/
theorem exec_bbRead_past_end (hv : s.din = .int v) (h : 3392 < off + len) :
    exec (.bbRead off len) s = .next (s.enterFault .bitRangeOutOfBounds) :=
  (State.withInteger_int hv _).trans (congrArg _ (if_pos h))

/-- BB_WRITE past the end of BUF, whatever the width of DIN (R114, R239). -/
theorem exec_bbWrite_past_end (hv : s.din = .int v) (h : 3392 < off + len) :
    exec (.bbWrite off len) s = .next (s.enterFault .bitRangeOutOfBounds) :=
  (State.withInteger_int hv _).trans (congrArg _ (if_pos h))

/-- BB_WRITE of a value that its range cannot hold (R114). -/
theorem exec_bbWrite_too_wide (hv : s.din = .int v) (h : off + len ≤ 3392) (hw : 2 ^ len ≤ v.toNat) :
    exec (.bbWrite off len) s = .next (s.enterFault .valueTooWide) :=
  (State.withInteger_int hv _).trans (congrArg _ ((if_neg (range_in_bounds h)).trans (if_pos hw)))

/-- REC_LOAD of a byte sequence that is no record (R116). -/
theorem exec_recLoad_wrong_length {d : List Byte} (hd : s.din = .bytes d) (h : d.length ≠ 424) :
    exec .recLoad s = .next (s.enterFault .unexpectedRecordLength) :=
  (State.withBytes_bytes hd _).trans (congrArg _ (if_pos h))

/-- REC_LOAD of an integer (R87). -/
theorem exec_recLoad_int (hv : s.din = .int v) : exec .recLoad s = .next (s.enterFault .illegalCommand) :=
  State.withBytes_int hv _

end Faults

section Buffer

variable {m : Memory} {off len : Nat}

/-- The bit of BUF at OFF+i is bit LEN-1-i of the value read (R110). -/
theorem Memory.testBit_readBits_of_lt (m : Memory) (off : Nat) {i : Nat} (hi : i < len) :
    (m.readBits off len).testBit (len - 1 - i) = m.bit (off + i) := by
  rw [Memory.testBit_readBits, if_pos (by omega), show len - 1 - (len - 1 - i) = i by omega]

/-- Position OFF+i takes bit LEN-1-i of the value written (R113). -/
theorem Memory.bit_writeBits_inside (hm : m.wf = true) (h : off + len ≤ 3392) (v : Nat) {i : Nat} (hi : i < len) :
    (m.writeBits off len v).bit (off + i) = v.testBit (len - 1 - i) := by
  rw [Memory.bit_writeBits hm h, if_pos (by omega), Nat.add_sub_cancel_left]

/-- Bits outside the range keep their values (R113). -/
theorem Memory.bit_writeBits_outside (hm : m.wf = true) (h : off + len ≤ 3392) (v : Nat) {p : Nat}
    (hp : p < off ∨ off + len ≤ p) : (m.writeBits off len v).bit p = m.bit p := by
  rw [Memory.bit_writeBits hm h, if_neg (by omega)]

/-- Bytes outside the range keep their values, since their 8 bits do (R113). -/
theorem Memory.read_writeBits_outside (hm : m.wf = true) (h : off + len ≤ 3392) (v : Nat) {a : Nat}
    (ha : 8 * a + 8 ≤ off ∨ off + len ≤ 8 * a) : (m.writeBits off len v).read a = m.read a :=
  Memory.read_eq_of_bits fun _ _ => Memory.bit_writeBits_outside hm h v (by omega)

/-- Bytes put from byte 0 on: byte k of the sequence is record byte k (R60, R116). -/
theorem Memory.read_putBytes_zero (hm : m.wf = true) {d : List Byte} {k : Nat} (hk : k < d.length) :
    (m.putBytes 0 d).read k = d[k] := by
  simpa only [Nat.zero_add] using Memory.read_putBytes_self (Memory.wf_rising hm) (a := 0) hk

end Buffer

/-- Settles O24: the words are those of format B; in bounds DOUT is readBits, whose bits are those of BUF; past the end it faults. -/
theorem bbReadReturnsTheRange : Obligations.BbReadReturnsTheRange := by
  refine ⟨fun off len hoff hlen => ?_, fun s off len v hv => ⟨fun h => ?_, fun h => exec_bbRead_past_end hv h⟩⟩
  · rw [show (0x1 : Nat) = (0x1 : BitVec 4).toNat from rfl, ofNat_formatB _ hoff hlen]
    exact Laws.EncodeDecode.bbRead off len (rangeOperandsFit_of_lt hoff hlen)
  · refine ⟨port (s.buf.readBits off len), exec_bbRead hv h, ?_, fun i hi => ?_⟩
    · rw [port_readBits h]
      exact Memory.readBits_lt _ _ _
    · rw [port_readBits h]
      exact Memory.testBit_readBits_of_lt _ _ hi

/-- Settles O25: the words are those of format B; in bounds and narrow enough BUF is writeBits, which is DIN inside the range and the old BUF
outside it; the bound is checked before the width. -/
theorem bbWriteStoresTheRange : Obligations.BbWriteStoresTheRange := by
  refine ⟨fun off len hoff hlen => ?_, fun s off len v hm hv =>
    ⟨fun h hw => ?_, fun h => exec_bbWrite_past_end hv h, fun h hw => exec_bbWrite_too_wide hv h hw⟩⟩
  · rw [show (0x2 : Nat) = (0x2 : BitVec 4).toNat from rfl, ofNat_formatB _ hoff hlen]
    exact Laws.EncodeDecode.bbWrite off len (rangeOperandsFit_of_lt hoff hlen)
  · exact ⟨s.buf.writeBits off len v.toNat, exec_bbWrite hv h hw, fun i hi => Memory.bit_writeBits_inside hm h _ hi,
      fun p hp => Memory.bit_writeBits_outside hm h _ hp, fun a ha => Memory.read_writeBits_outside hm h _ ha⟩

/-- Settles O28: REC_LOAD has format N and so one word; of 424 bytes BUF is putBytes from byte 0, and of any other number it faults. -/
theorem recLoadPlacesTheRecord : Obligations.RecLoadPlacesTheRecord := by
  have hword : decode 0x30000000 = .ok .recLoad := Laws.EncodeDecode.recLoad rfl
  refine ⟨soleWord_of_formatN hword (o := .recLoad) rfl rfl rfl,
    fun v => raisesIllegal_of_exec hword fun s hv => exec_recLoad_int hv,
    fun s d hm hd => ⟨fun h => ?_, fun h => exec_recLoad_wrong_length hd h⟩⟩
  exact ⟨s.buf.putBytes 0 d, exec_recLoad hd h, fun k hk => Memory.read_putBytes_zero hm hk,
    fun a ha => Memory.read_putBytes_other _ d (by omega)⟩

end Sys2Proof.Machine
end

section
/-!
SUPPORT. Format L as R96 builds it, and the illegal words of the two formats that hold a FID, L and F (R92, R93); and LAYOUT
(41_record_layout.md): what it answers is the layout table.
-/

namespace Sys2Proof.Machine

/-- A word of format L is OP<<28 | FID<<24 (R96). -/
theorem wordL_toNat (op : BitVec 4) (fid : FieldId) : (wordL op fid).toNat = op.toNat <<< 28 ||| fid.bits.toNat <<< 24 := by
  simp only [wordL, BitVec.toNat_append, Nat.shiftLeft_or_distrib, ← Nat.shiftLeft_add, BitVec.ofNat_eq_ofNat, BitVec.toNat_ofNat,
    Nat.zero_mod, Nat.or_zero]

/-- The number that R96 builds for format L is that word. -/
theorem ofNat_formatL (op : BitVec 4) (fid : FieldId) : BitVec.ofNat 32 (op.toNat <<< 28 ||| fid.bits.toNat <<< 24) = wordL op fid := by
  rw [← wordL_toNat, BitVec.ofNat_toNat, BitVec.setWidth_eq]

/-- A FID of 11 or more names no field, so the FID check refuses its word (R93). -/
theorem withField_of_no_field {w : Word} (hfid : 11 ≤ w.toNat / 2 ^ 24 % 16) (command : FieldId → Instr) :
    withField w command = .error .noSuchField := by
  have hnone : FieldId.ofBits (fidField w) = none := (fieldOfBits_none _).mpr ((fidField_toNat w).symm ▸ hfid)
  rw [withField, hnone]

/-- A word whose command has the FID check raises ILLEGAL_COMMAND when its FID names no field or an RSV bit is set (R92, R93): the RSV
bits are checked first, and with none of them set the FID check decides (R95). -/
theorem raisesIllegal_of_fieldCommand {w : Word} {o : Opcode} {command : FieldId → Instr}
    (ho : Opcode.ofBits (opField w) = some o) (hcommand : decodeOperands o w = withField w command)
    (h : 11 ≤ w.toNat / 2 ^ 24 % 16 ∨ w &&& o.format.rsvMask ≠ 0) (d : Din) : raisesIllegal w d := by
  by_cases hr : w &&& o.format.rsvMask ≠ 0
  · exact raisesIllegal_of_decode_error (decode_of_reserved_set ho hr) d
  · have hfid : 11 ≤ w.toNat / 2 ^ 24 % 16 := h.resolve_right hr
    refine raisesIllegal_of_decode_error (e := .noSuchField) ?_ d
    simp only [decode, ho, if_neg hr, hcommand, withField_of_no_field hfid]

/-- Settles O30: a word of opcode 4 is of format L, whose illegal words are known; and a row of the table is a field with its FID and its
layout, so its word is the encoding of LAYOUT of that field and its last two entries are what LAYOUT answers. -/
theorem layoutReturnsTheTable : Obligations.LayoutReturnsTheTable := by
  refine ⟨fun w d hop h => ?_, fun s v hv e he => ?_⟩
  · have ho : Opcode.ofBits (opField w) = some .layout := (opcodeOfBits_some _ _).mpr ((opField_toNat w).trans hop)
    exact raisesIllegal_of_fieldCommand ho (command := .layout) rfl (h.imp_right (reserved_set w .L).mpr) d
  · obtain ⟨hbits, hlayout⟩ : e.1.bits.toNat = e.2.1 ∧ e.1.layout = e.2.2 := by
      revert e
      decide
    rw [← hbits, ← hlayout]
    exact ⟨(congrArg decode (ofNat_formatL 0x4 e.1)).trans (Laws.EncodeDecode.layout e.1 rfl), exec_layout e.1 hv⟩

end Sys2Proof.Machine
end

section
/-!
SUPPORT. ITEM_ENC and ITEM_DEC (42_item_slot.md): the width fault of each, what the port carries of each answer, and their whole effect.
-/

namespace Sys2Proof.Machine

section Faults

variable {s : State} {v : Data}

/-- ITEM_ENC of a value that is no 16-bit id (R152). -/
theorem exec_itemEnc_too_wide (hv : s.din = .int v) (h : 2 ^ 16 ≤ v.toNat) :
    exec .itemEnc s = .next (s.enterFault .valueTooWide) :=
  (State.withInteger_int hv _).trans (congrArg _ (if_pos h))

/-- ITEM_DEC of a value that is no 3-byte slot (R154). -/
theorem exec_itemDec_too_wide (hv : s.din = .int v) (h : 2 ^ 24 ≤ v.toNat) :
    exec .itemDec s = .next (s.enterFault .valueTooWide) :=
  (State.withInteger_int hv _).trans (congrArg _ (if_pos h))

end Faults

section Answers

variable {x : Nat}

/-- The slot of a 16-bit id has 24 bits, so the port carries it whole (R80, R151). -/
theorem port_itemSlot (h : x < 2 ^ 16) :
    (port (x % 256 * 2 ^ 16 + x / 256 * 2 ^ 8)).toNat = x % 256 * 2 ^ 16 + x / 256 * 2 ^ 8 :=
  port_toNat_small (n := 24) (by omega) (by decide)

/-- The id of a 24-bit slot has 16 bits, so the port carries it whole (R80, R153). -/
theorem port_itemId (h : x < 2 ^ 24) :
    (port (x / 2 ^ 8 % 256 * 256 + x / 2 ^ 16)).toNat = x / 2 ^ 8 % 256 * 256 + x / 2 ^ 16 :=
  port_toNat_small (n := 16) (by omega) (by decide)

/-- The low byte of a number is its remainder modulo 256. -/
theorem and_lowByte (x : Nat) : x &&& 0xFF = x % 256 := Nat.and_two_pow_sub_one_eq_mod x 8

/-- The second byte of a 16-bit number is its quotient by 256. -/
theorem and_secondByte (h : x < 2 ^ 16) : (x >>> 8) &&& 0xFF = x / 256 := by
  rw [and_lowByte, Nat.shiftRight_eq_div_pow]
  omega

end Answers

/-- Settles O33: ITEM_ENC has format N and so one word; a 16-bit id is answered with its slot, whose two shifted bytes are those of R152;
a wider DIN faults. -/
theorem itemEncPacksTheId : Obligations.ItemEncPacksTheId := by
  have hword : decode 0x50000000 = .ok .itemEnc := Laws.EncodeDecode.itemEnc rfl
  refine ⟨soleWord_of_formatN hword (o := .itemEnc) rfl rfl rfl,
    fun s v hv => ⟨fun h => ⟨_, exec_itemEnc hv h, ?_⟩, fun h => exec_itemEnc_too_wide hv h⟩⟩
  rw [port_itemSlot h, and_lowByte, and_secondByte h]

/-- Settles O34: ITEM_DEC has format N and so one word; a 24-bit slot is answered with its id, in which its low byte does not occur; a wider
DIN faults. -/
theorem itemDecUnpacksTheSlot : Obligations.ItemDecUnpacksTheSlot := by
  have hword : decode 0x60000000 = .ok .itemDec := Laws.EncodeDecode.itemDec rfl
  exact ⟨soleWord_of_formatN hword (o := .itemDec) rfl rfl rfl,
    fun s v hv => ⟨fun h => ⟨_, exec_itemDec hv h, port_itemId h⟩, fun h => exec_itemDec_too_wide hv h⟩⟩

end Sys2Proof.Machine
end

section
/-!
SUPPORT. RANK_ENC and RANK_DEC (43_rank_packer.md): the bits of a big-endian value byte by byte, where nibble j of a packed field stands
in it, the width fault of each command, and their whole effect.
-/

namespace Sys2Proof.Machine

/-- Byte i of a sequence, from the first, is the byte of its BE value with the rest of the sequence below it (R12). -/
theorem testBit_be (d : List Byte) {i k : Nat} (hi : i < d.length) (hk : k < 8) :
    (be d).testBit (8 * (d.length - 1 - i) + k) = (d.getD i 0).getLsbD k := by
  induction d using List.reverseRecOn with
  | nil => exact absurd hi (Nat.not_lt_zero i)
  | append_singleton d b ih =>
    have hbe : be (d ++ [b]) = 2 ^ 8 * be d + b.toNat := by rw [be_append_one]; omega
    rw [List.length_append, List.length_singleton] at hi ⊢
    rw [hbe, Nat.testBit_two_pow_mul_add _ b.isLt]
    by_cases hlast : i = d.length
    · rw [if_pos (by omega), show 8 * (d.length + 1 - 1 - i) + k = k by omega, hlast, List.getD_append_right _ _ _ _ le_rfl,
        Nat.sub_self, List.getD_cons_zero, BitVec.getLsbD]
    · have hid : i < d.length := by omega
      rw [if_neg (by omega), show 8 * (d.length + 1 - 1 - i) + k - 8 = 8 * (d.length - 1 - i) + k by omega, ih hid,
        List.getD_append _ _ _ _ hid]

section Packed

variable {j k : Nat}

/-- Nibble j of RankEncode's bytes, read as one integer, is the low nibble of rank j (R171, R172). -/
theorem testBit_be_rankEncode (r : Nat → Byte) (hj : j < 8) (hk : k < 4) :
    (be (rankEncode r)).testBit (8 * (3 - j / 2) + 4 * (j % 2) + k) = (r j).getLsbD k := by
  have hbyte := testBit_be (rankEncode r) (i := j / 2) (k := 4 * (j % 2) + k) (by rw [rankEncode_length]; omega) (by omega)
  rw [rankEncode_length, rankEncode_byte_bit r (by omega) (by omega), ← Nat.add_assoc] at hbyte
  rwa [show 2 * (j / 2) + (4 * (j % 2) + k) / 4 = j by omega, show (4 * (j % 2) + k) % 4 = k by omega] at hbyte

/-- Bit 4j + k of the accumulator of a packed field is bit k of nibble j in record order (R173). -/
theorem accumulator_bit_bytesOf {x : Nat} (h : x < 2 ^ 32) (hj : j < 8) (hk : k < 4) :
    (BitVec.ofNat 32 (be (bytesOf 4 x).reverse)).getLsbD (4 * j + k) = x.testBit (8 * (3 - j / 2) + 4 * (j % 2) + k) := by
  have hbyte := testBit_be (bytesOf 4 x) (i := j / 2) (k := 4 * (j % 2) + k) (by rw [bytesOf_length]; omega) (by omega)
  rw [be_bytesOf h, bytesOf_length, ← Nat.add_assoc] at hbyte
  refine (accumulator_bit _ _ _ _ (by omega)).trans ?_
  rw [show (4 * j + k) / 8 = j / 2 by omega, show (4 * j + k) % 8 = 4 * (j % 2) + k by omega]
  exact hbyte.symm

/-- Rank j of a packed field given as one integer weighs the bits of its nibble in record order 1, 2, 4 and 16 (R174, R178). -/
theorem rankDecode_bytesOf_toNat {x n : Nat} (h : x < 2 ^ 32) (hj : j < 8)
    (hn : n = x / 2 ^ (8 * (3 - j / 2) + 4 * (j % 2)) % 16) :
    (rankDecode (bytesOf 4 x) j).toNat = (n &&& 7) + 16 * (n >>> 3) := by
  have hbit : ∀ k < 4, (BitVec.ofNat 32 (be (bytesOf 4 x).reverse)).getLsbD (4 * j + k) = (BitVec.ofNat 8 n).getLsbD k := by
    intro k hk
    have hk8 : k < 8 := by omega
    rw [accumulator_bit_bytesOf h hj hk, hn, show (16 : Nat) = 2 ^ 4 from rfl, BitVec.getLsbD_ofNat, Nat.testBit_mod_two_pow,
      Nat.testBit_div_two_pow, Nat.add_comm k, decide_eq_true hk, decide_eq_true hk8, Bool.true_and, Bool.true_and]
  have hfirst := hbit 0 (by omega)
  rw [Nat.add_zero] at hfirst
  have hseven : n &&& 7 = n % 8 := Nat.and_two_pow_sub_one_eq_mod n 3
  have hthree : n >>> 3 = n / 8 := Nat.shiftRight_eq_div_pow n 3
  rw [rankDecode, rankOfAccumulator_toNat, hfirst, hbit 1 (by omega), hbit 2 (by omega), hbit 3 (by omega), nibble_weights,
    BitVec.toNat_ofNat, hseven, hthree]
  omega

end Packed

section Answers

/-- A packed field has 32 bits, so the port carries it whole (R80, R172). -/
theorem be_rankEncode_lt (r : Nat → Byte) : be (rankEncode r) < 2 ^ 32 := by
  simpa only [rankEncode_length] using be_lt (rankEncode r)

theorem port_be_rankEncode (r : Nat → Byte) : (port (be (rankEncode r))).toNat = be (rankEncode r) :=
  port_toNat_small (be_rankEncode_lt r) (by decide)

/-- A rank vector has 64 bits, so the port carries it whole (R80, R174). -/
theorem port_ofLanes (r : Nat → Byte) : (port (ofLanes r)).toNat = ofLanes r :=
  port_toNat_small (ofLanes_lt r) le_rfl

/-- Bit k of lane j is bit 8j + k of the vector (R89). -/
theorem lane_bit (v : Data) (j : Nat) {k : Nat} (hk : k < 8) : (lane v j).getLsbD k = v.toNat.testBit (8 * j + k) := by
  rw [lane, BitVec.getLsbD_extractLsb', decide_eq_true hk, Bool.true_and, BitVec.getLsbD]

end Answers

section Faults

variable {s : State} {v : Data}

/-- RANK_ENC of a value that is no vector of 8 lanes (R172). -/
theorem exec_rankEnc_too_wide (hv : s.din = .int v) (h : 2 ^ 64 ≤ v.toNat) :
    exec .rankEnc s = .next (s.enterFault .valueTooWide) :=
  (State.withInteger_int hv _).trans (congrArg _ (if_pos h))

/-- RANK_DEC of a value that is no 4-byte packed field (R174). -/
theorem exec_rankDec_too_wide (hv : s.din = .int v) (h : 2 ^ 32 ≤ v.toNat) :
    exec .rankDec s = .next (s.enterFault .valueTooWide) :=
  (State.withInteger_int hv _).trans (congrArg _ (if_pos h))

end Faults

/-- Settles O36: RANK_ENC has format N and so one word; 8 lanes are answered with their packed field, whose nibble j is the low nibble of
lane j; a wider DIN faults. -/
theorem rankEncPacksTheLanes : Obligations.RankEncPacksTheLanes := by
  have hword : decode 0x70000000 = .ok .rankEnc := Laws.EncodeDecode.rankEnc rfl
  refine ⟨soleWord_of_formatN hword (o := .rankEnc) rfl rfl rfl,
    fun s v hv => ⟨fun h => ⟨_, exec_rankEnc hv h, ?_⟩, fun h => exec_rankEnc_too_wide hv h⟩⟩
  rw [port_be_rankEncode]
  refine ⟨be_rankEncode_lt _, fun j hj k hk => ?_⟩
  rw [testBit_be_rankEncode _ hj hk, lane_bit v j (by omega)]

/-- Settles O37: RANK_DEC has format N and so one word; a packed field is answered with the vector whose lane j is the rank decoded from
nibble j; a wider DIN faults. -/
theorem rankDecUnpacksTheNibbles : Obligations.RankDecUnpacksTheNibbles := by
  have hword : decode 0x80000000 = .ok .rankDec := Laws.EncodeDecode.rankDec rfl
  refine ⟨soleWord_of_formatN hword (o := .rankDec) rfl rfl rfl,
    fun s v hv => ⟨fun h => ⟨_, exec_rankDec hv h, ?_⟩, fun h => exec_rankDec_too_wide hv h⟩⟩
  rw [port_ofLanes]
  refine ⟨ofLanes_lt _, fun j hj n hn => ?_⟩
  rw [ofLanes_lane _ hj, rankDecode_bytesOf_toNat h hj hn]

end Sys2Proof.Machine
end

section
/-!
SUPPORT. REC_DECODE, REC_ENCODE and REC_CLEAR (44_board_record.md): the rank of a nibble, the bytes of BUF on which a decoded element depends,
the bytes that no element covers, and the whole effect of each command.
-/

namespace Sys2Proof.Machine

/-- A command of integers raises ILLEGAL_COMMAND for a byte sequence (R87). -/
theorem raisesIllegal_of_withInteger {w : Word} {i : Instr} (hw : decode w = .ok i) {command : State → Data → State}
    (hexec : ∀ s, exec i s = s.withInteger (command s)) (d : List Byte) : raisesIllegal w (.bytes d) :=
  raisesIllegal_of_exec hw fun s hd => (hexec s).trans (State.withInteger_bytes hd _)

/-- The rank of nibble n of a packed field is (n & 7) + 16 * (n >> 3) (R178). -/
theorem Memory.rank_toNat_of_nibble (m : Memory) (a : Nat) {j n : Nat} (hj : j < 8)
    (hn : n = (m.read (a + j / 2)).toNat / 16 ^ (j % 2) % 16) : (m.rank a j).toNat = (n &&& 7) + 16 * (n >>> 3) := by
  have hseven : n &&& 7 = n % 8 := Nat.and_two_pow_sub_one_eq_mod n 3
  have hthree : n >>> 3 = n / 8 := Nat.shiftRight_eq_div_pow n 3
  rw [Memory.rank_toNat m a hj, hseven, hthree]
  omega

section Reserved

/-- A byte is not reserved when it is byte 2 of no item slot and in neither the gap nor the tail (R133). -/
theorem reservedByte_eq_false_iff {a : Nat} : reservedByte a = false ↔
    ¬(1 ≤ a ∧ a < 193 ∧ (a - 1) % 3 = 2) ∧ ¬(289 ≤ a ∧ a ≤ 291) ∧ ¬(324 ≤ a ∧ a < 348 ∧ (a - 324) % 3 = 2) ∧
      ¬(364 ≤ a ∧ a < 412 ∧ (a - 364) % 3 = 2) ∧ ¬(412 ≤ a ∧ a ≤ 423) := by
  simp only [reservedByte, Bool.or_eq_false_iff, decide_eq_false_iff_not, and_assoc]

/-- Two contents of BUF that agree on every byte of the record that is not reserved (R196). -/
def AgreeOffReserved (m m' : Memory) : Prop := ∀ a < 424, reservedByte a = false → m.read a = m'.read a

variable {m m' : Memory} (h : AgreeOffReserved m m')

include h

/-- An item id does not depend on byte 2 of its slot (R155). -/
theorem AgreeOffReserved.item_toNat {a : Nat} (ha : a + 1 < 424) (hlow : reservedByte a = false)
    (hhigh : reservedByte (a + 1) = false) : (m.item a).toNat = (m'.item a).toNat := by
  rw [Memory.item_toNat, Memory.item_toNat, h a (by omega) hlow, h (a + 1) ha hhigh]

/-- A rank depends on the byte of its nibble alone (R173). -/
theorem AgreeOffReserved.rank_toNat {a j : Nat} (hj : j < 8) (ha : a + j / 2 < 424)
    (hbyte : reservedByte (a + j / 2) = false) : (m.rank a j).toNat = (m'.rank a j).toNat := by
  rw [Memory.rank_toNat m a hj, Memory.rank_toNat m' a hj, h _ ha hbyte]

/-- Such contents decode to the same F: no element of R132 has a reserved byte among those it is decoded from (R196). -/
theorem AgreeOffReserved.decodeRecord_eq : decodeRecord m = decodeRecord m' := by
  refine Fields.ext_of_read fun fid i j hin => ?_
  obtain ⟨hi, hj⟩ := index_lt_dims hin
  rw [dims_eq] at hi hj
  cases fid with
  | version =>
    rw [decodeRecord_version m hi hj, decodeRecord_version m' hi hj, h versionAddr (by decide) rfl]
  | unitItems =>
    rw [decodeRecord_unitItem m hi hj, decodeRecord_unitItem m' hi hj]
    simp only [unitItemAddr] at hi hj ⊢
    exact h.item_toNat (by omega) (reservedByte_eq_false_iff.mpr (by omega)) (reservedByte_eq_false_iff.mpr (by omega))
  | boardUnitIDs =>
    rw [decodeRecord_boardUnit m hi hj, decodeRecord_boardUnit m' hi hj]
    simp only [boardUnitAddr] at hi hj ⊢
    rw [h _ (by omega) (reservedByte_eq_false_iff.mpr (by omega))]
  | selectedTalents =>
    rw [decodeRecord_talent m hi hj, decodeRecord_talent m' hi hj]
    simp only [talentAddr] at hi hj ⊢
    rw [h _ (by omega) (reservedByte_eq_false_iff.mpr (by omega))]
  | unitRanks =>
    rw [decodeRecord_unitRank m hi hj, decodeRecord_unitRank m' hi hj]
    simp only [packedUnitRankAddr] at hi hj ⊢
    exact h.rank_toNat hi (by omega) (reservedByte_eq_false_iff.mpr (by omega))
  | benchUnitItems =>
    rw [decodeRecord_benchItem m hi hj, decodeRecord_benchItem m' hi hj]
    simp only [benchItemAddr] at hi ⊢
    exact h.item_toNat (by omega) (reservedByte_eq_false_iff.mpr (by omega)) (reservedByte_eq_false_iff.mpr (by omega))
  | benchedUnitIDs =>
    rw [decodeRecord_benchUnit m hi hj, decodeRecord_benchUnit m' hi hj]
    simp only [benchUnitAddr] at hi ⊢
    rw [h _ (by omega) (reservedByte_eq_false_iff.mpr (by omega))]
  | benchUnitRanks =>
    rw [decodeRecord_benchRank m hi hj, decodeRecord_benchRank m' hi hj]
    simp only [packedBenchRankAddr] at hi ⊢
    exact h.rank_toNat hi (by omega) (reservedByte_eq_false_iff.mpr (by omega))
  | underlordIDs =>
    rw [decodeRecord_underlordId m hi hj, decodeRecord_underlordId m' hi hj]
    simp only [underlordIdAddr] at hi ⊢
    rw [h _ (by omega) (reservedByte_eq_false_iff.mpr (by omega))]
  | underlordRanks =>
    rw [decodeRecord_underlordRank m hi hj, decodeRecord_underlordRank m' hi hj]
    simp only [underlordRankAddr] at hi ⊢
    rw [h _ (by omega) (reservedByte_eq_false_iff.mpr (by omega))]
  | unequippedItems =>
    rw [decodeRecord_unequippedItem m hi hj, decodeRecord_unequippedItem m' hi hj]
    simp only [unequippedItemAddr] at hi hj ⊢
    exact h.item_toNat (by omega) (reservedByte_eq_false_iff.mpr (by omega)) (reservedByte_eq_false_iff.mpr (by omega))

end Reserved

section Uncovered

/-- No element lies in the gap 289..291 or past byte 411 (R132, R133). -/
theorem recordShape_avoids_gap_and_tail : ∀ p ∈ recordShape, (p.1 + p.2 ≤ 289 ∨ 292 ≤ p.1) ∧ p.1 + p.2 ≤ 412 := by
  decide +kernel

/-- REC_ENCODE leaves 0 in the gap, in the tail, and past the record (R198). -/
theorem encodeRecord_gap_and_tail (f : Fields) {a : Nat} (ha : (289 ≤ a ∧ a ≤ 291) ∨ 412 ≤ a) :
    (encodeRecord f).read a = 0 := by
  refine read_encodeRecord_other f fun p hp => ?_
  have := recordShape_avoids_gap_and_tail p hp
  omega

end Uncovered

/-- Settles O40: REC_DECODE has format N and so one word; F is decodeRecord of BUF, whose elements are known field by field. -/
theorem recDecodeReadsEveryElement : Obligations.RecDecodeReadsEveryElement := by
  have hword : decode 0x90000000 = .ok .recDecode := Laws.EncodeDecode.recDecode rfl
  refine ⟨soleWord_of_formatN hword (o := .recDecode) rfl rfl rfl, raisesIllegal_of_withInteger hword fun _ => rfl,
    fun s v hv => ⟨decodeRecord s.buf, exec_recDecode hv, ?_⟩⟩
  refine ⟨?version, ?unitItems, ?boardUnits, ?talents, ?unitRanks, ?benchItems, ?benchUnits, ?benchRanks, ?underlordIds,
    ?underlordRanks, ?unequipped⟩
  case version => exact decodeRecord_version _ one_pos one_pos
  case unitItems =>
    rintro a ha b hb _ rfl
    exact (decodeRecord_unitItem _ ha hb).trans (Memory.item_toNat _ _)
  case boardUnits => exact fun a ha b hb => decodeRecord_boardUnit _ ha hb
  case talents => exact fun t ht p hp => decodeRecord_talent _ ht hp
  case unitRanks => exact fun a ha b hb n hn => (decodeRecord_unitRank _ ha hb).trans (Memory.rank_toNat_of_nibble _ _ ha hn)
  case benchItems =>
    rintro i hi _ rfl
    exact (decodeRecord_benchItem _ hi one_pos).trans (Memory.item_toNat _ _)
  case benchUnits => exact fun i hi => decodeRecord_benchUnit _ hi one_pos
  case benchRanks => exact fun i hi n hn => (decodeRecord_benchRank _ hi one_pos).trans (Memory.rank_toNat_of_nibble _ _ hi hn)
  case underlordIds => exact fun p hp => decodeRecord_underlordId _ hp one_pos
  case underlordRanks => exact fun p hp => decodeRecord_underlordRank _ hp one_pos
  case unequipped =>
    rintro i hi j hj _ rfl
    exact (decodeRecord_unequippedItem _ hi hj).trans (Memory.item_toNat _ _)

/-- Settles O41: BUFs that agree off the reserved bytes have one decoded F, and REC_DECODE leaves it in both states. -/
theorem reservedBytesDoNotDecode : Obligations.ReservedBytesDoNotDecode := by
  intro s s' v v' hv hv' hagree
  have hsame : decodeRecord s.buf = decodeRecord s'.buf := AgreeOffReserved.decodeRecord_eq hagree
  exact ⟨decodeRecord s.buf, exec_recDecode hv, hsame ▸ exec_recDecode hv'⟩

/-- Settles O42: REC_ENCODE has format N and so one word; BUF is encodeRecord of F, whose bytes are known element by element, and 0 where
no element lies. -/
theorem recEncodeWritesEveryElement : Obligations.RecEncodeWritesEveryElement := by
  have hword : decode 0xA0000000 = .ok .recEncode := Laws.EncodeDecode.recEncode rfl
  refine ⟨soleWord_of_formatN hword (o := .recEncode) rfl rfl rfl, raisesIllegal_of_withInteger hword fun _ => rfl,
    fun s v hv => ⟨encodeRecord s.f, exec_recEncode hv, encodeRecord_version_toNat _, ?unitItems,
      fun a ha b hb => encodeRecord_boardUnit_toNat _ ha hb, fun t ht p hp => encodeRecord_talent_toNat _ ht hp,
      fun b hb k hk => encodeRecord_unitRanks_toNat _ hb hk, ?benchItems, fun i hi => encodeRecord_benchUnit_toNat _ hi,
      fun k hk => encodeRecord_benchRanks_toNat _ hk, fun p hp => encodeRecord_underlordId_toNat _ hp,
      fun p hp => encodeRecord_underlordRank_toNat _ hp, ?unequipped, fun a ha => encodeRecord_gap_and_tail _ ha⟩⟩
  case unitItems =>
    rintro a ha b hb _ rfl
    exact encodeRecord_unitItem_toNat _ ha hb
  case benchItems =>
    rintro i hi _ rfl
    exact encodeRecord_benchItem_toNat _ hi
  case unequipped =>
    rintro i hi j hj _ rfl
    exact encodeRecord_unequippedItem_toNat _ hi hj

/-- Settles O47: REC_CLEAR has format N and so one word; F is the cleared register file, whose every element is 0. -/
theorem recClearZeroesTheFields : Obligations.RecClearZeroesTheFields := by
  have hword : decode 0xB0000000 = .ok .recClear := Laws.EncodeDecode.recClear rfl
  exact ⟨soleWord_of_formatN hword (o := .recClear) rfl rfl rfl, raisesIllegal_of_withInteger hword fun _ => rfl,
    fun s v hv => ⟨Fields.zero, exec_recClear hv, fun fid i j _ => Fields.read_zero fid i j⟩⟩

end Sys2Proof.Machine
end

section
/-!
SUPPORT. Format F as R96 builds it; and FIELD_RD and FIELD_WR (44_board_record.md): the faults they raise, what the port carries of an element,
and their whole effect.
-/

namespace Sys2Proof.Machine

section Words

variable (op : BitVec 4) (fid : FieldId) {i j : Nat} (hi : i < 16) (hj : j < 16)

include hi hj

/-- A word of format F is OP<<28 | FID<<24 | I<<20 | J<<16 (R96). -/
theorem wordF_toNat : (wordF op fid i j).toNat = op.toNat <<< 28 ||| fid.bits.toNat <<< 24 ||| i <<< 20 ||| j <<< 16 := by
  have hi' : (BitVec.ofNat 4 i).toNat = i := Nat.mod_eq_of_lt hi
  have hj' : (BitVec.ofNat 4 j).toNat = j := Nat.mod_eq_of_lt hj
  simp only [wordF, BitVec.toNat_append, hi', hj', Nat.shiftLeft_or_distrib, ← Nat.shiftLeft_add, BitVec.ofNat_eq_ofNat,
    BitVec.toNat_ofNat, Nat.zero_mod, Nat.or_zero]

/-- The number that R96 builds for format F is that word. -/
theorem ofNat_formatF :
    BitVec.ofNat 32 (op.toNat <<< 28 ||| fid.bits.toNat <<< 24 ||| i <<< 20 ||| j <<< 16) = wordF op fid i j := by
  rw [← wordF_toNat op fid hi hj, BitVec.ofNat_toNat, BitVec.setWidth_eq]

theorem indexOperandsFit_of_lt : indexOperandsFit i j = true := by
  simp only [indexOperandsFit, hi, hj, decide_true, Bool.and_true]

end Words

/-- Indexes below both dims are in range (R211). -/
theorem not_indexOutOfRange {fid : FieldId} {i j : Nat} (hi : i < fid.dims.1) (hj : j < fid.dims.2) : ¬indexOutOfRange fid i j :=
  not_or.mpr ⟨Nat.not_le.mpr hi, Nat.not_le.mpr hj⟩

/-- An element has at most 16 bits, so the port carries it whole (R80, R212). -/
theorem port_read (f : Fields) (fid : FieldId) (i j : Nat) : (port (f.read fid i j)).toNat = f.read fid i j :=
  port_toNat_small (f.read_lt fid i j) (by cases fid <;> decide)

section Faults

variable {s : State} {v : Data} {fid : FieldId} {i j : Nat}

/-- FIELD_RD of an index past the dims (R211). -/
theorem exec_fieldRd_past_dims (hv : s.din = .int v) (h : indexOutOfRange fid i j) :
    exec (.fieldRd fid i j) s = .next (s.enterFault .indexOutOfRange) :=
  (State.withInteger_int hv _).trans (congrArg _ (if_pos h))

/-- FIELD_WR of an index past the dims, whatever the width of DIN (R211, R239). -/
theorem exec_fieldWr_past_dims (hv : s.din = .int v) (h : indexOutOfRange fid i j) :
    exec (.fieldWr fid i j) s = .next (s.enterFault .indexOutOfRange) :=
  (State.withInteger_int hv _).trans (congrArg _ (if_pos h))

/-- FIELD_WR of a value that its element cannot hold (R209). -/
theorem exec_fieldWr_too_wide (hv : s.din = .int v) (h : ¬indexOutOfRange fid i j) (hw : 2 ^ fid.width ≤ v.toNat) :
    exec (.fieldWr fid i j) s = .next (s.enterFault .valueTooWide) :=
  (State.withInteger_int hv _).trans (congrArg _ ((if_neg h).trans (if_pos hw)))

end Faults

section Written

variable {fid : FieldId} {i j v : Nat} (h : ¬indexOutOfRange fid i j) (hv : v < 2 ^ fid.width)

include h hv

/-- The element written reads back (R209). -/
theorem Fields.read_write_self (f : Fields) : (f.write fid i j v).read fid i j = v :=
  (f.read_write fid fid h h hv).trans (if_pos ⟨rfl, rfl, rfl⟩)

/-- Every other element keeps its value (R209). -/
theorem Fields.read_write_other (f : Fields) {fid' : FieldId} {i' j' : Nat} (h' : ¬indexOutOfRange fid' i' j')
    (hne : ¬(fid' = fid ∧ i' = i ∧ j' = j)) : (f.write fid i j v).read fid' i' j' = f.read fid' i' j' :=
  (f.read_write fid fid' h h' hv).trans (if_neg hne)

end Written

/-- Settles O48: a row of the table is a field with its FID and its dims, so its words are the encodings of FIELD_RD; within the dims DOUT is
the element, which fits the port, and past them it faults. -/
theorem fieldRdReturnsTheElement : Obligations.FieldRdReturnsTheElement := by
  refine ⟨fun w d hop h => ?_, fun s v hv e he i j => ?_⟩
  · have ho : Opcode.ofBits (opField w) = some .fieldRd := (opcodeOfBits_some _ _).mpr ((opField_toNat w).trans hop)
    exact raisesIllegal_of_fieldCommand ho (command := fun fid => .fieldRd fid (iField w).toNat (jField w).toNat) rfl
      (h.imp_right (reserved_set w .F).mpr) d
  · obtain ⟨hbits, hdimI, hdimJ⟩ : e.1.bits.toNat = e.2.1 ∧ e.1.dims.1 = e.2.2.1 ∧ e.1.dims.2 = e.2.2.2 := by
      revert e
      decide
    rw [← hbits, ← hdimI, ← hdimJ]
    refine ⟨fun hi hj => ?_, fun hi hj => ?_, fun h => exec_fieldRd_past_dims hv h⟩
    · exact (congrArg decode (ofNat_formatF 0xC e.1 hi hj)).trans
        (Laws.EncodeDecode.fieldRd e.1 i j (indexOperandsFit_of_lt hi hj))
    · exact ⟨port (s.f.read e.1 i j), exec_fieldRd hv (not_indexOutOfRange hi hj), port_read _ _ _ _⟩

/-- Settles O49: a row of the table is a field with its FID, its dims and its width, so its words are the encodings of FIELD_WR; within both,
F changes in the element alone; the index is checked before the width. -/
theorem fieldWrWritesTheElement : Obligations.FieldWrWritesTheElement := by
  refine ⟨fun w d hop h => ?_, fun s v hv e he i j => ?_⟩
  · have ho : Opcode.ofBits (opField w) = some .fieldWr := (opcodeOfBits_some _ _).mpr ((opField_toNat w).trans hop)
    exact raisesIllegal_of_fieldCommand ho (command := fun fid => .fieldWr fid (iField w).toNat (jField w).toNat) rfl
      (h.imp_right (reserved_set w .F).mpr) d
  · obtain ⟨hbits, hdimI, hdimJ, hwidth⟩ : e.1.bits.toNat = e.2.1 ∧ e.1.dims.1 = e.2.2.1 ∧ e.1.dims.2 = e.2.2.2.1 ∧
        e.1.width = e.2.2.2.2 := by
      revert e
      decide
    rw [← hbits, ← hdimI, ← hdimJ, ← hwidth]
    refine ⟨fun hi hj => ?_, fun hi hj hw => ?_, fun h => exec_fieldWr_past_dims hv h,
      fun hi hj hw => exec_fieldWr_too_wide hv (not_indexOutOfRange hi hj) hw⟩
    · exact (congrArg decode (ofNat_formatF 0xD e.1 hi hj)).trans
        (Laws.EncodeDecode.fieldWr e.1 i j (indexOperandsFit_of_lt hi hj))
    · have hin : ¬indexOutOfRange e.1 i j := not_indexOutOfRange hi hj
      exact ⟨s.f.write e.1 i j v.toNat, exec_fieldWr hv hin hw, Fields.read_write_self hin hw _,
        fun _ _ _ h' hne => Fields.read_write_other hin hw _ h' hne⟩

end Sys2Proof.Machine
end

section
/-!
SUPPORT. Faults (60_exceptions.md): what a presented command answers (R236), the words and data operands that raise ILLEGAL_COMMAND (R232), and
the order of the other kinds (R239).
-/

namespace Sys2Proof.Machine

/-- Settles O10: with no input the step is the identity. -/
theorem holdsBetweenCommands : Obligations.HoldsBetweenCommands :=
  fun _ => step_of_no_input

/-- A presented command answers OK and leaves the status registers alone, or enters a fault from the state with the command on the port:
a word that is no command enters ILLEGAL_COMMAND, and any other ends as its instruction does (R236, R37). -/
theorem step_of_command {s : State} {w : Word} {d : Din} {rest : List HostInput} (h : s.inputs = .command w d :: rest) :
    ∃ t, step s = .next t ∧
      ((∃ v, t.responses = ⟨.ok, port v⟩ :: s.responses ∧ t.faultKind = s.faultKind ∧ t.faultCmd = s.faultCmd) ∨
        ∃ k, t = (s.present w d rest).enterFault k) := by
  cases hw : decode w with
  | error e => exact ⟨_, step_of_decode_error h hw, .inr ⟨.illegalCommand, rfl⟩⟩
  | ok i =>
    obtain ⟨t, hexec, hends⟩ := exec_ends i (s.present w d rest)
    refine ⟨t, (step_of_decode_ok h hw).trans hexec, ?_⟩
    cases hends with
    | completes m g v _ _ _ => exact .inl ⟨v, rfl, rfl, rfl⟩
    | faults k _ => exact .inr ⟨k, rfl⟩

/-- Settles O14: a command answers OK or enters a fault; the response in front says which, and of what kind. -/
theorem faultEntryChangesNothingElse : Obligations.FaultEntryChangesNothingElse := by
  intro s w d rest hin
  obtain ⟨t, hstep, ⟨v, hresp, hkept⟩ | ⟨k, rfl⟩⟩ := step_of_command hin
  · exact ⟨t, ⟨.ok, port v⟩, hstep, hresp, (fun _ hfault => nomatch hfault), fun _ => hkept⟩
  · refine ⟨_, ⟨.fault k, 0⟩, hstep, rfl, fun k' hfault => ?_, fun hok => nomatch hok⟩
    obtain rfl : k = k' := Status.fault.inj hfault
    rfl

section IllegalWords

variable {w : Word} {o : Opcode}

/-- The commands of formats F and L have the FID check (R93). -/
theorem decodeOperands_eq_withField (w : Word) (hf : o.format = .F ∨ o.format = .L) :
    ∃ command, decodeOperands o w = withField w command := by
  cases o with
  | layout | fieldRd | fieldWr => exact ⟨_, rfl⟩
  | _ => simp [Opcode.format] at hf

/-- An illegal word of a command's opcode has an RSV bit of its format set (R92), or a FID that names no field (R93). -/
theorem reserved_or_no_field (ho : Opcode.ofBits (opField w) = some o) (h : illegalWord w) :
    w &&& o.format.rsvMask ≠ 0 ∨ (o.format = .F ∨ o.format = .L) ∧ 11 ≤ w.toNat / 2 ^ 24 % 16 := by
  have hop := (opField_toNat w).symm.trans ((opcodeOfBits_some _ o).mp ho)
  rw [reserved_set]
  simp only [illegalWord] at h
  cases o <;> simp only [Opcode.format, reduceCtorEq, or_self, or_true, true_and, false_and, or_false] at hop ⊢ <;> omega

/-- An illegal word does not decode (R91, R92, R93). -/
theorem decode_of_illegalWord (h : illegalWord w) : ∃ e, decode w = .error e := by
  cases ho : Opcode.ofBits (opField w) with
  | none => exact ⟨.reservedOpcode, by simp only [decode, ho]⟩
  | some o =>
    by_cases hr : w &&& o.format.rsvMask ≠ 0
    · exact ⟨.reservedBits, decode_of_reserved_set ho hr⟩
    · obtain ⟨hf, hfid⟩ := (reserved_or_no_field ho h).resolve_left hr
      obtain ⟨command, hcommand⟩ := decodeOperands_eq_withField w hf
      exact ⟨.noSuchField, by simp only [decode, ho, if_neg hr, hcommand, withField_of_no_field hfid]⟩

end IllegalWords

section WrongKind

variable {w : Word} {i : Instr}

/-- A word that decodes has the opcode of a command, whose operands it holds (R95). -/
theorem opcode_of_decode (hw : decode w = .ok i) :
    ∃ o, Opcode.ofBits (opField w) = some o ∧ decodeOperands o w = .ok i := by
  unfold decode at hw
  split at hw
  · cases hw
  · rename_i o ho
    split at hw
    · cases hw
    · exact ⟨o, ho, hw⟩

/-- The FID check answers the command of some field. -/
theorem withField_ok {command : FieldId → Instr} (h : withField w command = .ok i) : ∃ fid, i = command fid := by
  unfold withField at h
  split at h
  · exact ⟨_, (Except.ok.inj h).symm⟩
  · cases h

/-- Only opcode REC_LOAD gives the instruction REC_LOAD. -/
theorem decodeOperands_eq_recLoad_iff {o : Opcode} (h : decodeOperands o w = .ok i) : i = .recLoad ↔ o = .recLoad := by
  cases o with
  | layout | fieldRd | fieldWr =>
    obtain ⟨fid, rfl⟩ := withField_ok h
    simp
  | _ =>
    cases h
    simp

/-- A word is REC_LOAD exactly when its opcode is 3 (R90). -/
theorem decode_eq_recLoad_iff (hw : decode w = .ok i) : i = .recLoad ↔ w.toNat / 2 ^ 28 = 3 := by
  obtain ⟨o, ho, hi⟩ := opcode_of_decode hw
  rw [decodeOperands_eq_recLoad_iff hi, ← opField_toNat, ← opcodeOfBits_some _ .recLoad, ho, Option.some.injEq]

/-- A byte sequence is refused by every command but REC_LOAD (R87). -/
theorem exec_bytes {s : State} {d : List Byte} (hi : i ≠ .recLoad) (hd : s.din = .bytes d) :
    exec i s = .next (s.enterFault .illegalCommand) := by
  cases i with
  | recLoad => exact absurd rfl hi
  | _ => exact State.withInteger_bytes hd _

/-- A command presented with a data operand of the wrong kind raises ILLEGAL_COMMAND (R87, R232). -/
theorem raisesIllegal_of_wrongKind {d : Din} (hw : decode w = .ok i) (h : wrongKind w d) : raisesIllegal w d := by
  refine raisesIllegal_of_exec hw fun s hd => ?_
  cases d with
  | int v =>
    obtain rfl : i = .recLoad := (decode_eq_recLoad_iff hw).mpr h
    exact exec_recLoad_int hd
  | bytes b => exact exec_bytes (mt (decode_eq_recLoad_iff hw).mp h) hd

end WrongKind

/-- Settles O16: a word that does not decode raises ILLEGAL_COMMAND with any data operand; an illegal word is one, and a command
refuses a data operand of the wrong kind. -/
theorem illegalCommandsFault : Obligations.IllegalCommandsFault := by
  suffices hraises : ∀ w d, illegalWord w ∨ wrongKind w d → raisesIllegal w d from
    fun s w d rest hin h => hraises w d h s rest hin
  intro w d h
  cases hw : decode w with
  | error e => exact raisesIllegal_of_decode_error hw d
  | ok i =>
    have hlegal : ¬illegalWord w := fun hill => by
      obtain ⟨e, he⟩ := decode_of_illegalWord hill
      cases hw.symm.trans he
    exact raisesIllegal_of_wrongKind hw (h.resolve_left hlegal)

section Priority

variable {i : Instr} {k k' : FaultKind}

/-- A command with a bit range has no index (R231). -/
theorem raises_range_not_index (h : raises i .bitRangeOutOfBounds = true) : raises i .indexOutOfRange = false := by
  cases i with
  | bbRead | bbWrite => rfl
  | _ => cases h

/-- Besides ILLEGAL_COMMAND, a command that checks the record's length raises that kind alone (R231). -/
theorem raises_length_only (h : raises i .unexpectedRecordLength = true) (hk : raises i k = true) (hne : k ≠ .illegalCommand) :
    k = .unexpectedRecordLength := by
  cases i with
  | recLoad =>
    cases k with
    | illegalCommand => exact absurd rfl hne
    | unexpectedRecordLength => rfl
    | _ => cases hk
  | _ => cases h

/-- Only the index and the range come between ILLEGAL_COMMAND and the width (R239). -/
theorem kind_before_width (hne : k ≠ .illegalCommand) (hlt : k.code.toNat < FaultKind.valueTooWide.code.toNat) :
    k = .indexOutOfRange ∨ k = .bitRangeOutOfBounds := by
  cases k with
  | indexOutOfRange => exact .inl rfl
  | bitRangeOutOfBounds => exact .inr rfl
  | illegalCommand => exact absurd rfl hne
  | _ => exact absurd hlt (by decide)

/-- Of two kinds besides ILLEGAL_COMMAND that one command raises, the later in the order is VALUE_TOO_WIDE (R239). -/
theorem later_kind_is_width (h : raises i k = true) (h' : raises i k' = true) (hne : k ≠ .illegalCommand)
    (hne' : k' ≠ .illegalCommand) (hlt : k.code.toNat < k'.code.toNat) : k' = .valueTooWide := by
  cases k' with
  | illegalCommand => exact absurd rfl hne'
  | valueTooWide => rfl
  | indexOutOfRange =>
    obtain rfl | rfl := kind_before_width hne (hlt.trans (by decide))
    · exact absurd hlt (Nat.lt_irrefl _)
    · exact absurd hlt (by decide)
  | bitRangeOutOfBounds =>
    obtain rfl | rfl := kind_before_width hne (hlt.trans (by decide))
    · exact absurd h (Bool.eq_false_iff.mp (raises_range_not_index h'))
    · exact absurd hlt (Nat.lt_irrefl _)
  | unexpectedRecordLength => exact absurd hlt (raises_length_only h' h hne ▸ Nat.lt_irrefl _)
  | unsupportedVersion | base64DecodeError | decompressionError => cases h'

end Priority

/-- Settles O18: illegal words and wrong kinds as in O16; FIELD_WR and BB_WRITE check the index and the range before the width; and of two
other kinds of one command the later is VALUE_TOO_WIDE, before which only those two stand. -/
theorem faultPriority : Obligations.FaultPriority := by
  refine ⟨fun s w d rest hin h => ⟨_, illegalCommandsFault s w d rest hin h, rfl⟩,
    fun s fid i j v hv hindex _ => ⟨_, exec_fieldWr_past_dims hv hindex, rfl⟩,
    fun s off len v hv hrange _ => ⟨_, exec_bbWrite_past_end hv hrange, rfl⟩, fun i k k' h h' hne hne' hlt => ?_⟩
  obtain rfl : k' = .valueTooWide := later_kind_is_width h h' hne hne' hlt
  exact ⟨kind_before_width hne hlt, rfl⟩

end Sys2Proof.Machine
end

section
/-!
SUPPORT. The reset input (R260).
-/

namespace Sys2Proof.Machine

/-- A buffer that lists no byte reads as 0 at every address (R21, R41). -/
theorem Memory.read_nil (a : Nat) : Memory.read [] a = 0 :=
  rfl

/-- Settles O11: the step answers the reset state with the host's inputs after it, whatever the state held, and the reset state is all
zero (R41). -/
theorem resetInputClearsEverything : Obligations.ResetInputClearsEverything := by
  intro s rest hin
  obtain ⟨hbits, helements, hkind, hcmd⟩ := resetStateIsAllZero
  exact ⟨State.assertReset rest, step_of_reset hin, Memory.read_nil, fun p _ => hbits p, fun fid i j _ => helements fid i j, hkind, hcmd,
    rfl⟩

end Sys2Proof.Machine
end

section
/-!
SUPPORT. Decode of encode for every instruction (30_encoding.md section 6); and the invariant of the machine (10_state.md rules R21 and R37,
60_exceptions.md rule R253), with what else holds of every step.
-/

namespace Sys2Proof.Machine

/-- Settles O1: instruction by instruction, by the law of its format. -/
theorem decodeOfEncodeIsTheInstruction : Obligations.DecodeOfEncodeIsTheInstruction := by
  intro i
  cases i with
  | bbRead off len => exact Laws.EncodeDecode.bbRead off len
  | bbWrite off len => exact Laws.EncodeDecode.bbWrite off len
  | recLoad => exact Laws.EncodeDecode.recLoad
  | layout fid => exact Laws.EncodeDecode.layout fid
  | itemEnc => exact Laws.EncodeDecode.itemEnc
  | itemDec => exact Laws.EncodeDecode.itemDec
  | rankEnc => exact Laws.EncodeDecode.rankEnc
  | rankDec => exact Laws.EncodeDecode.rankDec
  | recDecode => exact Laws.EncodeDecode.recDecode
  | recEncode => exact Laws.EncodeDecode.recEncode
  | recClear => exact Laws.EncodeDecode.recClear
  | fieldRd fid i j => exact Laws.EncodeDecode.fieldRd fid i j
  | fieldWr fid i j => exact Laws.EncodeDecode.fieldWr fid i j

section Invariant

variable {s t : State} {i : Instr} {k : FaultKind}

/-- A command raises none of the host's three kinds, so the code it leaves in FAULT_KIND is at most 5 (R37, R238). -/
theorem code_le_five_of_raises (h : raises i k = true) : k.code.toNat ≤ 5 := by
  cases k with
  | unsupportedVersion | base64DecodeError | decompressionError => cases h
  | _ => decide

/-- Completion adds an OK response, which is sound and no fault; a new BUF is in canonical form, and any F will do (R212). -/
theorem State.Inv.complete (h : s.Inv) {m : Memory} (hm : m.wf = true) (g : Fields) (v : Nat) :
    (State.complete { s with buf := m, f := g } v).Inv where
  bufCanonical := hm
  faultKindLegal := h.faultKindLegal
  responsesSound := h.responsesSound
  faultedIffKind := h.faultedIffKind

/-- The response of a fault entry carries DOUT 0 (R80). -/
theorem sound_fault (k : FaultKind) : Response.sound ⟨.fault k, 0⟩ = true := by
  simp only [Response.sound, beq_self_eq_true, Bool.or_true]

/-- Fault entry of a kind of the block adds a sound response, and from then on the run has faulted and FAULT_KIND is not 0. -/
theorem State.Inv.enterFault (h : s.Inv) (hk : k.code.toNat ≤ 5) : (s.enterFault k).Inv where
  bufCanonical := h.bufCanonical
  faultKindLegal := hk
  responsesSound := by rw [State.enterFault_responses, List.all_cons, sound_fault, Bool.true_and, h.responsesSound]
  faultedIffKind := iff_of_true rfl k.code_ne_zero

/-- What the host presents is outside the invariant. -/
theorem State.Inv.present (h : s.Inv) (w : Word) (d : Din) (rest : List HostInput) : (s.present w d rest).Inv where
  bufCanonical := h.bufCanonical
  faultKindLegal := h.faultKindLegal
  responsesSound := h.responsesSound
  faultedIffKind := h.faultedIffKind

/-- A run just begun has an empty BUF, no response and FAULT_KIND 0 (R253, R260). -/
theorem assertReset_inv (rest : List HostInput) : (State.assertReset rest).Inv where
  bufCanonical := Memory.wf_nil
  faultKindLegal := Nat.zero_le 5
  responsesSound := rfl
  faultedIffKind := iff_of_false Bool.false_ne_true (not_not.mpr rfl)

/-- Either way a command ends, the invariant is kept. -/
theorem Ends.inv (h : Ends i s t) (hs : s.Inv) : t.Inv := by
  cases h with
  | completes m g v hm _ _ => exact hs.complete (hm hs.bufCanonical) g v
  | faults k hk => exact hs.enterFault (code_le_five_of_raises hk)

end Invariant

/-- Settles O21: each of the four moves of a step keeps the invariant. -/
theorem everyStepKeepsTheInvariant : Obligations.EveryStepKeepsTheInvariant := by
  intro s t hs hstep
  cases moves_of_step hstep with
  | waits _ => exact hs
  | resets _ => exact assertReset_inv _
  | performs _ _ hends => exact hends.inv (hs.present _ _ _)
  | refusesWord _ _ => exact (hs.present _ _ _).enterFault (by decide)

/-- Settles O22: the reset state is the one that the reset input gives with no further inputs. -/
theorem resetMeetsTheInvariant : Obligations.ResetMeetsTheInvariant :=
  assertReset_inv []

/-- Settles O13: a step makes one of its moves, and each answers a next state. -/
theorem everyStepAnswersANextState : Obligations.EveryStepAnswersANextState := by
  intro s
  obtain ⟨t, hstep, _⟩ := step_moves s
  exact ⟨t, hstep⟩

/-- Settles O15: the codes are as written; a command completes with an OK response, or enters a fault of a kind that it lists. -/
theorem faultKindsOfEachCommand : Obligations.FaultKindsOfEachCommand := by
  refine ⟨⟨rfl, rfl, rfl, rfl, rfl, rfl, rfl, rfl⟩, fun i s => ?_⟩
  obtain ⟨t, hexec, hends⟩ := exec_ends i s
  cases hends with
  | completes m g v _ _ _ => exact ⟨_, ⟨.ok, port v⟩, hexec, rfl, fun _ hfault => nomatch hfault⟩
  | faults k hk =>
    refine ⟨_, ⟨.fault k, 0⟩, hexec, rfl, fun k' hfault => ?_⟩
    obtain rfl : k = k' := Status.fault.inj hfault
    exact hk

/-- A command that may not write F leaves it alone, whether it completes or faults. -/
theorem Ends.f_eq {i : Instr} {s t : State} (h : Ends i s t) (hi : writesFields i = false) : t.f = s.f := by
  cases h with
  | completes m g v hm hb hf => exact hf hi
  | faults k hk => rfl

/-- The commands that may write F, by name (R192, R205, R209). -/
theorem writesFields_iff (i : Instr) :
    writesFields i = true ↔ (∃ fid a b, i = .fieldWr fid a b) ∨ i = .recDecode ∨ i = .recClear := by
  cases i <;> simp [writesFields]

/-- Settles O20: of the four moves, only reset and a command that may write F leave it other than it was. -/
theorem fieldsChangeOnlyByTheirWriters : Obligations.FieldsChangeOnlyByTheirWriters := by
  intro s t hstep hchanged
  cases moves_of_step hstep with
  | waits _ => exact absurd rfl hchanged
  | resets hin => exact .inl ⟨_, hin⟩
  | performs hin hi hends =>
    have hwrites : writesFields _ = true :=
      Bool.of_not_eq_false fun hnot => hchanged (hends.f_eq hnot)
    exact .inr ⟨_, _, _, _, hin, hi, (writesFields_iff _).mp hwrites⟩
  | refusesWord _ _ => exact absurd rfl hchanged

end Sys2Proof.Machine
end

section
/-!
SUPPORT. Command words and their instructions, both ways (30_encoding.md sections 5 to 7): format N as R96 builds it, a word as its format of
its own fields, and the words that do not decode.
-/

namespace Sys2Proof.Machine

/-- A word of format N is OP<<28 (R96). -/
theorem wordN_toNat (op : BitVec 4) : (wordN op).toNat = op.toNat <<< 28 := by
  simp only [wordN, BitVec.toNat_append, BitVec.ofNat_eq_ofNat, BitVec.toNat_ofNat, Nat.zero_mod, Nat.or_zero]

/-- Settles O2: each command is encoded in its format, and the number of each format is known; a FID is the number of its row. -/
theorem commandWordsAreBuiltByFormat : Obligations.CommandWordsAreBuiltByFormat := by
  refine ⟨fun off len hoff hlen => ⟨wordB_toNat 0x1 hoff hlen, wordB_toNat 0x2 hoff hlen⟩, fun e he => ?_, fun e he => ?_⟩
  · have hbits : e.1.bits.toNat = e.2 := by
      revert e
      decide
    rw [← hbits]
    exact ⟨wordL_toNat 0x4 e.1, fun i j hi hj => ⟨wordF_toNat 0xC e.1 hi hj, wordF_toNat 0xD e.1 hi hj⟩⟩
  · obtain ⟨op, hword, hop⟩ : ∃ op : BitVec 4, encode e.1 = wordN op ∧ op.toNat = e.2 := by
      revert e
      decide
    rw [hword, wordN_toNat, hop]

section Fields

variable {w : Word} {op : BitVec 4} {fid : FieldId}

/-- The low bits of a multiple of 2^n are 0. -/
theorem low_eq_zero {n : Nat} (h : w.toNat % 2 ^ n = 0) : w.extractLsb' 0 n = 0 := by
  refine BitVec.eq_of_toNat_eq ?_
  rw [BitVec.extractLsb'_toNat, Nat.shiftRight_zero, h]
  rfl

/-- Neighbouring fields of a word, side by side, are one field of it. -/
theorem join_fields {lo m n : Nat} (hi : Nat) (h : hi = lo + n) :
    w.extractLsb' hi m ++ w.extractLsb' lo n = w.extractLsb' lo (m + n) :=
  BitVec.extractLsb'_append_extractLsb'_eq_extractLsb' h

/-- A word of format B is put together from its own fields (R82). -/
theorem wordB_of_fields (hop : (opField w).toNat = op.toNat) (h : w.toNat % 2 ^ 4 = 0) :
    wordB op (offField w).toNat (lenField w).toNat = w := by
  rw [wordB, ← low_eq_zero h, ← BitVec.eq_of_toNat_eq hop, BitVec.ofNat_toNat, BitVec.ofNat_toNat, BitVec.setWidth_eq,
    BitVec.setWidth_eq, opField, offField, lenField, join_fields 28 rfl, join_fields 16 rfl, join_fields 4 rfl,
    BitVec.extractLsb'_eq_self]

/-- A word of format F is put together from its own fields (R83). -/
theorem wordF_of_fields (hop : (opField w).toNat = op.toNat) (hfid : fid.bits = fidField w) (h : w.toNat % 2 ^ 16 = 0) :
    wordF op fid (iField w).toNat (jField w).toNat = w := by
  rw [wordF, ← low_eq_zero h, ← BitVec.eq_of_toNat_eq hop, hfid, BitVec.ofNat_toNat, BitVec.ofNat_toNat, BitVec.setWidth_eq,
    BitVec.setWidth_eq, opField, fidField, iField, jField, join_fields 28 rfl, join_fields 24 rfl, join_fields 20 rfl,
    join_fields 16 rfl, BitVec.extractLsb'_eq_self]

/-- A word of format L is put together from its own fields (R84). -/
theorem wordL_of_fields (hop : (opField w).toNat = op.toNat) (hfid : fid.bits = fidField w) (h : w.toNat % 2 ^ 24 = 0) :
    wordL op fid = w := by
  rw [wordL, ← low_eq_zero h, ← BitVec.eq_of_toNat_eq hop, hfid, opField, fidField, join_fields 28 rfl, join_fields 24 rfl,
    BitVec.extractLsb'_eq_self]

/-- A word of format N is put together from its opcode (R85). -/
theorem wordN_of_fields (hop : (opField w).toNat = op.toNat) (h : w.toNat % 2 ^ 28 = 0) : wordN op = w := by
  rw [wordN, ← low_eq_zero h, ← BitVec.eq_of_toNat_eq hop, opField, join_fields 28 rfl, BitVec.extractLsb'_eq_self]

end Fields

section Decoded

variable {w : Word} {i : Instr} {o : Opcode}

/-- A word that decodes has no RSV bit of its format set (R92). -/
theorem reserved_clear_of_decode (hw : decode w = .ok i) (ho : Opcode.ofBits (opField w) = some o) : w &&& o.format.rsvMask = 0 := by
  by_contra hr
  cases hw.symm.trans (decode_of_reserved_set ho hr)

/-- The FID check answers the command of the field that the FID names (R93). -/
theorem withField_ok_bits {command : FieldId → Instr} (h : withField w command = .ok i) :
    ∃ fid, fid.bits = fidField w ∧ i = command fid := by
  unfold withField at h
  split at h
  · exact ⟨_, bits_of_ofBits _ _ ‹_›, (Except.ok.inj h).symm⟩
  · cases h

/-- The FID check fails only on a FID that names no field (R93). -/
theorem no_field_of_withField_error {command : FieldId → Instr} {e : DecodeError} (h : withField w command = .error e) :
    11 ≤ w.toNat / 2 ^ 24 % 16 := by
  unfold withField at h
  split at h
  · cases h
  · exact fidField_toNat w ▸ (fieldOfBits_none _).mp ‹_›

/-- RSV bits that are clear are low bits that are 0 (R90). -/
theorem reserved_mod_eq_zero {fmt : Format} (hr : w &&& fmt.rsvMask = 0) :
    w.toNat % 2 ^ (match fmt with | .B => 4 | .F => 16 | .L => 24 | .N => 28) = 0 := by
  by_contra h
  exact (reserved_set w fmt).mpr h hr

/-- The operands of a word with no RSV bit set make an instruction whose word it is, and they fit (R95, R96). -/
theorem encode_decodeOperands (ho : Opcode.ofBits (opField w) = some o) (hr : w &&& o.format.rsvMask = 0)
    (hi : decodeOperands o w = .ok i) : WellFormed i ∧ encode i = w := by
  have hop := (opcodeOfBits_some _ o).mp ho
  have hlow := reserved_mod_eq_zero hr
  cases o with
  | bbRead | bbWrite =>
    cases hi
    exact ⟨rangeOperandsFit_of_lt (offField w).isLt (lenField w).isLt, wordB_of_fields hop hlow⟩
  | layout =>
    obtain ⟨fid, hfid, rfl⟩ := withField_ok_bits hi
    exact ⟨rfl, wordL_of_fields hop hfid hlow⟩
  | fieldRd | fieldWr =>
    obtain ⟨fid, hfid, rfl⟩ := withField_ok_bits hi
    exact ⟨indexOperandsFit_of_lt (iField w).isLt (jField w).isLt, wordF_of_fields hop hfid hlow⟩
  | _ =>
    cases hi
    exact ⟨rfl, wordN_of_fields hop hlow⟩

/-- A word with a reserved opcode is illegal (R91). -/
theorem illegalWord_of_no_opcode (ho : Opcode.ofBits (opField w) = none) : illegalWord w :=
  .inl (opField_toNat w ▸ (opcodeOfBits_none _).mp ho)

/-- A word with an RSV bit of its format set is illegal (R92). -/
theorem illegalWord_of_reserved_set (ho : Opcode.ofBits (opField w) = some o) (hr : w &&& o.format.rsvMask ≠ 0) : illegalWord w := by
  have hop := (opField_toNat w).symm.trans ((opcodeOfBits_some _ o).mp ho)
  rw [reserved_set] at hr
  simp only [illegalWord]
  cases o <;> simp only [Opcode.format] at hop hr <;> omega

/-- Operands are refused only in a format with a FID, and for a FID that names no field, so the word is illegal (R93). -/
theorem illegalWord_of_operands_error {e : DecodeError} (ho : Opcode.ofBits (opField w) = some o)
    (he : decodeOperands o w = .error e) : illegalWord w := by
  have hop := (opField_toNat w).symm.trans ((opcodeOfBits_some _ o).mp ho)
  cases o with
  | layout | fieldRd | fieldWr =>
    have hfid := no_field_of_withField_error he
    simp only [illegalWord]
    simp only at hop
    omega
  | _ => cases he

/-- The decoder refuses illegal words alone (R91, R92, R93). -/
theorem illegalWord_of_decode_error {e : DecodeError} (hw : decode w = .error e) : illegalWord w := by
  cases ho : Opcode.ofBits (opField w) with
  | none => exact illegalWord_of_no_opcode ho
  | some o =>
    by_cases hr : w &&& o.format.rsvMask ≠ 0
    · exact illegalWord_of_reserved_set ho hr
    · simp only [decode, ho, if_neg hr] at hw
      exact illegalWord_of_operands_error ho hw

end Decoded

/-- Settles O3: a word that decodes has the opcode of a command and no RSV bit set, so it is put together from the fields that its operands
are read from. -/
theorem decodedWordIsTheEncoding : Obligations.DecodedWordIsTheEncoding := by
  intro w i hw
  obtain ⟨o, ho, hi⟩ := opcode_of_decode hw
  exact encode_decodeOperands ho (reserved_clear_of_decode hw ho) hi

/-- Settles O4: the decoder refuses every illegal word, and what it refuses is illegal. -/
theorem everyWordIsIllegalOrACommand : Obligations.EveryWordIsIllegalOrACommand := by
  refine fun w => ⟨decode_of_illegalWord, fun hlegal => ?_⟩
  cases hw : decode w with
  | error e => exact absurd (illegalWord_of_decode_error hw) hlegal
  | ok i => exact ⟨i, rfl⟩

/-- Settles O5: each word is its bits, on which the decoder computes. -/
theorem wordsWrittenOutDecode : Obligations.WordsWrittenOutDecode :=
  ⟨rfl, rfl, rfl, rfl, rfl, rfl, rfl, rfl, rfl⟩

/-- Settles O6: the expansions are the definitions, and the word of REC_STORE is computed. -/
theorem pseudoInstructionsExpand : Obligations.PseudoInstructionsExpand :=
  ⟨fun _ _ => ⟨rfl, rfl, rfl, rfl, rfl⟩, rfl, rfl⟩

/-- Settles O7: three fixed lines, which the assembler computes on. -/
theorem assemblyExamples : Obligations.AssemblyExamples := by
  unfold Obligations.AssemblyExamples
  decide +kernel

end Sys2Proof.Machine
end

section
/-!
SUPPORT. The host's side of a step (00_scope.md rule R3): the command presented, and the command that withFetchWord presents; and a data
operand of the wrong kind (R87).
-/

namespace Sys2Proof.Machine

/-- Settles O8: a presented word that decodes is performed as its instruction. -/
theorem stepRunsTheDecodedInstruction : Obligations.StepRunsTheDecodedInstruction :=
  fun _ _ _ _ _ hin hw => step_of_decode_ok hin hw

/-- A table word of 32 bits is its low 32 bits (R81). -/
theorem ofNat_tableWord (w : Nat) : BitVec.ofNat 32 (w % 2 ^ 32) = BitVec.ofNat 32 w :=
  BitVec.eq_of_toNat_eq (by simp only [BitVec.toNat_ofNat, Nat.mod_mod])

/-- A table word of 32 bits is decoded as its command word (R81). -/
theorem decode_of_decodeTableWord {w : Nat} {i : Instr} (h : decodeTableWord 32 w = some i) : decode (BitVec.ofNat 32 w) = .ok i := by
  rw [decodeTableWord, if_pos le_rfl, ofNat_tableWord] at h
  cases hw : decode (BitVec.ofNat 32 w) with
  | error e => rw [hw] at h; cases h
  | ok j => rw [hw] at h; cases h; rfl

/-- The data operand presented with any instruction but REC_LOAD is the integer 0. -/
theorem plainDin_of_ne_recLoad {i : Instr} (h : i ≠ .recLoad) : plainDin (some i) = .int 0 := by
  cases i with
  | recLoad => exact absurd rfl h
  | _ => exact congrArg Din.int BitVec.zero_eq

/-- Settles O9: the word presented is the table word, which decodes to the instruction; its data operand is 424 zero bytes for REC_LOAD and
the integer 0 for any other. -/
theorem fetchWordRunsNext : Obligations.FetchWordRunsNext := by
  intro s w i hi
  have hin : (s.withFetchWord 32 w).inputs = .command (BitVec.ofNat 32 w) (plainDin (some i)) :: s.inputs := by
    rw [← ofNat_tableWord, ← hi]
    rfl
  refine ⟨plainDin (some i), step_of_decode_ok hin (decode_of_decodeTableWord hi), fun h => h ▸ rfl, plainDin_of_ne_recLoad⟩

/-- Settles O17: every command but REC_LOAD refuses a byte sequence, and REC_LOAD an integer. -/
theorem wrongKindOfDinFaults : Obligations.WrongKindOfDinFaults :=
  fun _ => ⟨fun _ _ hi hd => exec_bytes hi hd, fun _ hv => exec_recLoad_int hv⟩

end Sys2Proof.Machine
end

section
/-!
SUPPORT. What BUF returns (20_memory.md section 1, 40_bitbuffer.md): a range written and read back, the bytes of a big-endian value as its
base-256 digits, and the record loaded and read back.
-/

namespace Sys2Proof.Machine

/-- Settles O23: position 8n + k stands in byte n, k places below its most significant bit. -/
theorem positionsAreMostSignificantFirst : Obligations.PositionsAreMostSignificantFirst := by
  intro m n k hk
  rw [Memory.bit, bitInByte, show (8 * n + k) / 8 = n by omega, show 7 - (8 * n + k) % 8 = 7 - k by omega]

section Ranges

variable {m : Memory} {off len : Nat} (hm : m.wf = true) (h : off + len ≤ 3392) {v : Nat}

include hm h

/-- A range written reads back as the value written (R115). -/
theorem Memory.readBits_writeBits_self (hv : v < 2 ^ len) : (m.writeBits off len v).readBits off len = v := by
  refine Nat.eq_of_testBit_eq fun k => ?_
  rw [Memory.testBit_readBits]
  by_cases hk : k < len
  · rw [if_pos hk, Memory.bit_writeBits_inside hm h v (by omega), show len - 1 - (len - 1 - k) = k by omega]
  · rw [if_neg hk, Nat.testBit_lt_two_pow (hv.trans_le (Nat.pow_le_pow_right two_pos (by omega)))]

/-- A range disjoint from the one written reads as it did before (R115). -/
theorem Memory.readBits_writeBits_disjoint {o l : Nat} (hd : o + l ≤ off ∨ off + len ≤ o) :
    (m.writeBits off len v).readBits o l = m.readBits o l :=
  Memory.readBits_congr fun _ _ _ => Memory.bit_writeBits_outside hm h v (by omega)

end Ranges

/-- BB_READ answers what its range reads as, as the port carries it (R111). -/
theorem exec_bbRead_answers {s : State} {v x : Data} {off len : Nat} (hv : s.din = .int v) (h : off + len ≤ 3392)
    (hx : port (s.buf.readBits off len) = x) :
    exec (.bbRead off len) s = .next { s with responses := ⟨.ok, x⟩ :: s.responses } :=
  hx ▸ exec_bbRead hv h

/-- Settles O26: both commands complete in bounds, and BB_READ answers what its range of the written BUF reads as. -/
theorem readAfterWrite : Obligations.ReadAfterWrite := by
  intro s off len v hm hv h hw
  have hself : port ((s.buf.writeBits off len v.toNat).readBits off len) = v := by
    rw [Memory.readBits_writeBits_self hm h hw, port_toNat_self]
  exact ⟨_, exec_bbWrite hv h hw, exec_bbRead_answers hv h hself, fun o l ho hd => ⟨port (s.buf.readBits o l), exec_bbRead hv ho,
    exec_bbRead_answers hv ho (congrArg port (Memory.readBits_writeBits_disjoint hm h hd))⟩⟩

/-- Byte k of a sequence, from the first, is the base-256 digit of its BE value with the rest of the sequence below it (R12). -/
theorem be_digit (d : List Byte) {k : Nat} (hk : k < d.length) : be d / 256 ^ (d.length - 1 - k) % 256 = (d.getD k 0).toNat := by
  refine Nat.eq_of_testBit_eq fun j => ?_
  rw [show (256 : Nat) = 2 ^ 8 from rfl, ← Nat.pow_mul, Nat.testBit_mod_two_pow, Nat.testBit_div_two_pow, Nat.add_comm j]
  by_cases hj : j < 8
  · rw [decide_eq_true hj, Bool.true_and, testBit_be d hk hj, BitVec.getLsbD]
  · rw [decide_eq_false hj, Bool.false_and]
    exact (BitVec.getLsbD_of_ge _ j (by omega)).symm

/-- Byte k of n bytes of BUF from byte a is byte a + k (R13). -/
theorem Memory.bytes_getD (m : Memory) (a : Nat) {n k : Nat} (hk : k < n) : (m.bytes a n).getD k 0 = m.read (a + k) := by
  simp [Memory.bytes, List.getD, hk]

/-- Settles O27: the range is the BE value of its bytes, whose digits are the bytes. -/
theorem byteRangesReadBigEndian : Obligations.ByteRangesReadBigEndian := by
  intro s a n v hv h
  refine ⟨port (s.buf.readBits (8 * a) (8 * n)), exec_bbRead hv h, fun k hk => ?_⟩
  have hdigit := be_digit (s.buf.bytes a n) (k := k) (by rwa [Memory.bytes_length])
  rw [port_readBits h, Memory.readBits_bytes, ← Memory.bytes_getD s.buf a hk, ← hdigit, Memory.bytes_length]

/-- Bytes put from byte 0 on read back whole (R60). -/
theorem Memory.bytes_putBytes_zero {m : Memory} (hm : m.wf = true) (d : List Byte) : (m.putBytes 0 d).bytes 0 d.length = d := by
  refine List.ext_getElem (Memory.bytes_length _ _ _) fun k _ hk => ?_
  simp only [Memory.bytes, List.getElem_map, List.getElem_range, Nat.zero_add]
  exact Memory.read_putBytes_zero hm hk

/-- The whole record reads as the BE value of its 424 bytes (R100). -/
theorem Memory.readBits_record (m : Memory) : m.readBits 0 3392 = be (m.bytes 0 424) :=
  Memory.readBits_bytes m 0 424

/-- Settles O29: REC_LOAD puts the bytes from byte 0, so the 424 bytes whose BE value REC_STORE answers are those. -/
theorem storeReturnsTheLoadedRecord : Obligations.StoreReturnsTheLoadedRecord := by
  intro s d v hm hd hlen
  have hrecord : (s.buf.putBytes 0 d).readBits 0 3392 = be d := by
    rw [Memory.readBits_record, ← hlen, Memory.bytes_putBytes_zero hm]
  refine ⟨_, port (be d), exec_recLoad hd hlen, exec_bbRead_answers rfl le_rfl (congrArg port hrecord), ?_⟩
  rw [port_toNat_of_lt (be_lt d) (by rw [hlen]; exact le_rfl), ← hlen, bytesOf_be]

end Sys2Proof.Machine
end

section
/-!
SUPPORT. The codecs there and back (42_item_slot.md rule R156, 43_rank_packer.md rules R177 to R180), and what their responses depend on.
-/

namespace Sys2Proof.Machine

section Completions

variable {s : State} {v e : Data}

/-- ITEM_ENC answers the slot of its id, as the port carries it (R152). -/
theorem exec_itemEnc_answers (hv : s.din = .int v) (h : v.toNat < 2 ^ 16)
    (he : e.toNat = v.toNat % 256 * 2 ^ 16 + v.toNat / 256 * 2 ^ 8) :
    exec .itemEnc s = .next { s with responses := ⟨.ok, e⟩ :: s.responses } := by
  rw [exec_itemEnc hv h, ← he, State.complete_eq, port_toNat_self]

/-- ITEM_DEC answers the id of its slot, as the port carries it (R154). -/
theorem exec_itemDec_answers (hv : s.din = .int v) (h : v.toNat < 2 ^ 24)
    (he : e.toNat = v.toNat / 2 ^ 8 % 256 * 256 + v.toNat / 2 ^ 16) :
    exec .itemDec s = .next { s with responses := ⟨.ok, e⟩ :: s.responses } := by
  rw [exec_itemDec hv h, ← he, State.complete_eq, port_toNat_self]

end Completions

/-- The slot of a 16-bit id has 24 bits, and its id is that id (R156). -/
theorem id_of_slot_of_id {x y : Nat} (h : x < 2 ^ 16) (hy : y = x % 256 * 2 ^ 16 + x / 256 * 2 ^ 8) :
    y < 2 ^ 24 ∧ x = y / 2 ^ 8 % 256 * 256 + y / 2 ^ 16 := by
  have hhigh : y / 2 ^ 16 = x % 256 := by omega
  have hmiddle : y / 2 ^ 8 % 256 = x / 256 := by omega
  omega

/-- The id of a 24-bit slot has 16 bits, and its slot is that slot with its reserved byte zeroed (R156). -/
theorem slot_of_id_of_slot {x y : Nat} (h : x < 2 ^ 24) (hy : y = x / 2 ^ 8 % 256 * 256 + x / 2 ^ 16) :
    y < 2 ^ 16 ∧ x / 2 ^ 8 * 2 ^ 8 = y % 256 * 2 ^ 16 + y / 256 * 2 ^ 8 := by
  have hlow : y % 256 = x / 2 ^ 16 := by omega
  have hhigh : y / 256 = x / 2 ^ 8 % 256 := by omega
  omega

/-- Settles O35: the slot and the id are carried whole by the port, and each is the other's there and back. -/
theorem itemSlotRoundTrip : Obligations.ItemSlotRoundTrip := by
  refine fun s s' v hv => ⟨fun h => ?_, fun h => ?_⟩
  · obtain ⟨hlt, hback⟩ := id_of_slot_of_id h (port_itemSlot h)
    exact ⟨_, exec_itemEnc hv h, fun hd => exec_itemDec_answers hd hlt hback⟩
  · obtain ⟨hlt, hback⟩ := slot_of_id_of_slot h (port_itemId h)
    have hkept : (port (v.toNat / 2 ^ 8 * 2 ^ 8)).toNat = v.toNat / 2 ^ 8 * 2 ^ 8 :=
      port_toNat_small ((Nat.div_mul_le_self _ _).trans_lt h) (by decide)
    exact ⟨_, _, exec_itemDec hv h, hkept, fun hd => exec_itemEnc_answers hd hlt (hkept.trans hback)⟩

section Ranks

/-- A value of 8 lanes is known by its lanes (R89). -/
theorem eq_of_lanes {x y : Nat} (hx : x < 2 ^ 64) (hy : y < 2 ^ 64) (h : ∀ j < 8, x / 2 ^ (8 * j) % 256 = y / 2 ^ (8 * j) % 256) :
    x = y := by
  refine Nat.eq_of_testBit_eq fun n => ?_
  by_cases hn : n < 64
  · have hlane := congrArg (fun l => l.testBit (n % 8)) (h (n / 8) (by omega))
    simp only [show (256 : Nat) = 2 ^ 8 from rfl, Nat.testBit_mod_two_pow, Nat.testBit_div_two_pow] at hlane
    rwa [decide_eq_true (by omega), Bool.true_and, Bool.true_and, show n % 8 + 8 * (n / 8) = n by omega] at hlane
  · have hhigh : 2 ^ 64 ≤ 2 ^ n := Nat.pow_le_pow_right two_pos (by omega)
    rw [Nat.testBit_lt_two_pow (hx.trans_le hhigh), Nat.testBit_lt_two_pow (hy.trans_le hhigh)]

/-- The low three bits and the bit above them, as the spec's formula writes them (R180). -/
theorem rank_formula (r : Nat) : (r &&& 7) + 16 * ((r >>> 3) &&& 1) = r % 8 + 16 * (r / 8 % 2) := by
  rw [show r &&& 7 = r % 8 from Nat.and_two_pow_sub_one_eq_mod r 3, Nat.and_one_is_mod, Nat.shiftRight_eq_div_pow]

/-- The rank vector that RANK_DEC answers for the packed field that RANK_ENC answers for `v` (R172, R174). -/
def rankTrip (v : Data) : Data := port (ofLanes (rankDecode (bytesOf 4 (be (rankEncode (lane v))))))

/-- Every lane comes back by the spec's formula (R180). -/
theorem rankTrip_lane (v : Data) {j : Nat} (hj : j < 8) :
    (rankTrip v).toNat / 2 ^ (8 * j) % 256 =
      v.toNat / 2 ^ (8 * j) % 256 % 8 + 16 * (v.toNat / 2 ^ (8 * j) % 256 / 8 % 2) := by
  have hbytes : bytesOf 4 (be (rankEncode (lane v))) = rankEncode (lane v) := bytesOf_be (rankEncode (lane v))
  rw [rankTrip, port_ofLanes, ofLanes_lane _ hj, hbytes, rankDecode_rankEncode _ hj, lane_toNat]

/-- Ranks of at most 7 come back unchanged, and so does a vector of them (R177). -/
theorem rankTrip_eq_self {v : Data} (hv : v.toNat < 2 ^ 64) (h : ∀ j < 8, v.toNat / 2 ^ (8 * j) % 256 ≤ 7) : rankTrip v = v := by
  refine BitVec.eq_of_toNat_eq (eq_of_lanes (port_ofLanes _ ▸ ofLanes_lt _) hv fun j hj => ?_)
  have hlane := h j hj
  rw [rankTrip_lane v hj]
  omega

end Ranks

/-- Settles O38: the packed field of a vector has 32 bits, and its decoded lanes are known one by one. -/
theorem rankRoundTripAndDivergence : Obligations.RankRoundTripAndDivergence := by
  intro s s' v hv h
  refine ⟨port (be (rankEncode (lane v))), rankTrip v, exec_rankEnc hv h, fun hp => ?_, ?_, rankTrip_eq_self h⟩
  · have hpacked := port_be_rankEncode (lane v)
    rw [exec_rankDec hp (hpacked.trans_lt (be_rankEncode_lt _)), hpacked]
    rfl
  · rintro j hj r rfl
    rw [rankTrip_lane v hj, rank_formula]
    exact ⟨rfl, fun _ _ => by omega⟩

section Pure

/-- The response of a command that answers a function of DIN if DIN fits its width (R87, R234). -/
def codecResponse (width : Nat) (answer : Data → Nat) : Din → Response
  | .bytes _ => ⟨.fault .illegalCommand, 0⟩
  | .int v => if tooWide v width then ⟨.fault .valueTooWide, 0⟩ else ⟨.ok, port (answer v)⟩

/-- Such a command gives that response and leaves BUF and F alone. -/
theorem withInteger_responds (width : Nat) (answer : Data → Nat) (s : State) :
    ∃ t, s.withInteger (fun v => if tooWide v width then s.enterFault .valueTooWide else s.complete (answer v)) = .next t ∧
      t.responses = codecResponse width answer s.din :: s.responses ∧ t.buf = s.buf ∧ t.f = s.f := by
  cases hd : s.din with
  | bytes d => exact ⟨_, State.withInteger_bytes hd _, rfl, rfl, rfl⟩
  | int v =>
    refine ⟨_, State.withInteger_int hd _, ?_⟩
    by_cases hwide : tooWide v width
    · simp only [codecResponse, if_pos hwide, State.enterFault_responses, State.enterFault_buf, State.enterFault_f, and_self]
    · simp only [codecResponse, if_neg hwide, State.complete_responses, State.complete_buf, State.complete_f, and_self]

/-- The item and rank commands answer functions of DIN (R152, R154, R172, R174). -/
theorem exec_codec_responds {i : Instr} (hi : i ∈ [Instr.itemEnc, .itemDec, .rankEnc, .rankDec]) : ∃ respond : Din → Response,
    ∀ s : State, ∃ t, exec i s = .next t ∧ t.responses = respond s.din :: s.responses ∧ t.buf = s.buf ∧ t.f = s.f := by
  cases i with
  | itemEnc => exact ⟨_, withInteger_responds 16 fun v => be (itemEncode (v.setWidth 16))⟩
  | itemDec => exact ⟨_, withInteger_responds 24 fun v => (itemDecode (bytesOf 3 v.toNat)).toNat⟩
  | rankEnc => exact ⟨_, withInteger_responds 64 fun v => be (rankEncode (lane v))⟩
  | rankDec => exact ⟨_, withInteger_responds 32 fun v => ofLanes (rankDecode (bytesOf 4 v.toNat))⟩
  | _ => simp at hi

end Pure

/-- Settles O39: equal data operands give equal values of the function that the command responds by. -/
theorem codecCommandsArePure : Obligations.CodecCommandsArePure := by
  intro i hi s s' hdin
  obtain ⟨respond, hresponds⟩ := exec_codec_responds hi
  obtain ⟨t, hexec, hresp, hbuf, hf⟩ := hresponds s
  obtain ⟨t', hexec', hresp', _⟩ := hresponds s'
  exact ⟨t, t', respond s.din, hexec, hexec', hresp, hdin ▸ hresp', hbuf, hf⟩

end Sys2Proof.Machine
end

section
/-!
SUPPORT. The record there and back (44_board_record.md sections 3 and 5, 41_record_layout.md section 1): what F holds after REC_ENCODE and
REC_DECODE, and what BUF holds after REC_DECODE and REC_ENCODE.
-/

namespace Sys2Proof.Machine

/-- Settles O31: the addresses of the layout are fixed numbers. -/
theorem elementsAreDisjointAndInBounds : Obligations.ElementsAreDisjointAndInBounds := by
  unfold Obligations.ElementsAreDisjointAndInBounds
  decide +kernel

/-- Settles O32: a count over the 424 addresses. -/
theorem reservedBytesAreCounted : Obligations.ReservedBytesAreCounted := by
  unfold Obligations.ReservedBytesAreCounted
  decide +kernel

/-- Settles O50: the width of each row is that of its field, and the elements of F have their width in their type. -/
theorem elementsFitTheirWidth : Obligations.ElementsFitTheirWidth := by
  intro f i j e he
  have hwidth : e.1.width = e.2 := by
    revert e
    decide
  exact hwidth ▸ f.read_lt e.1 i j

section Reserved

/-- A reserved byte is byte 2 of an item slot, or lies in the gap or the tail (R133). -/
theorem reservedByte_eq_true_iff {a : Nat} : reservedByte a = true ↔
    (1 ≤ a ∧ a < 193 ∧ (a - 1) % 3 = 2) ∨ (289 ≤ a ∧ a ≤ 291) ∨ (324 ≤ a ∧ a < 348 ∧ (a - 324) % 3 = 2) ∨
      (364 ≤ a ∧ a < 412 ∧ (a - 364) % 3 = 2) ∨ (412 ≤ a ∧ a ≤ 423) := by
  simp only [reservedByte, Bool.or_eq_true, decide_eq_true_eq, or_assoc]

/-- REC_ENCODE leaves 0 in every reserved byte: byte 2 of a slot is put as 0, and the gap and the tail are not put at all (R202). -/
theorem encodeRecord_reserved (f : Fields) {a : Nat} (ha : reservedByte a = true) : (encodeRecord f).read a = 0 := by
  obtain h | h | h | h | h := reservedByte_eq_true_iff.mp ha
  · obtain ⟨-, -, hzero⟩ := encodeRecord_unitItem_toNat f (a := (a - 1) / 3 / 8) (b := (a - 1) / 3 % 8) (by omega) (by omega)
    rwa [show 1 + 3 * (8 * ((a - 1) / 3 / 8) + (a - 1) / 3 % 8) + 2 = a by omega] at hzero
  · exact encodeRecord_gap_and_tail f (.inl h)
  · obtain ⟨-, -, hzero⟩ := encodeRecord_benchItem_toNat f (i := (a - 324) / 3) (by omega)
    rwa [show 324 + 3 * ((a - 324) / 3) + 2 = a by omega] at hzero
  · obtain ⟨-, -, hzero⟩ := encodeRecord_unequippedItem_toNat f (i := (a - 364) / 3 / 2) (j := (a - 364) / 3 % 2) (by omega) (by omega)
    rwa [show 364 + 3 * (2 * ((a - 364) / 3 / 2) + (a - 364) / 3 % 2) + 2 = a by omega] at hzero
  · exact encodeRecord_gap_and_tail f (.inr h.1)

end Reserved

section Effects

/-! The record commands as a chain of them is followed: the next state by what it holds in BUF, F and DIN. -/

variable {s : State} {v : Data} (hv : s.din = .int v)

include hv

theorem recEncode_effect : ∃ t, exec .recEncode s = .next t ∧ t.buf = encodeRecord s.f ∧ t.din = .int v :=
  ⟨_, exec_recEncode hv, by dsimp only, hv⟩

theorem recDecode_effect : ∃ t, exec .recDecode s = .next t ∧ t.f = decodeRecord s.buf ∧ t.buf = s.buf ∧ t.din = .int v :=
  ⟨_, exec_recDecode hv, rfl, rfl, hv⟩

theorem recClear_effect : ∃ t, exec .recClear s = .next t ∧ t.f = Fields.zero ∧ t.buf = s.buf ∧ t.din = .int v :=
  ⟨_, exec_recClear hv, rfl, rfl, hv⟩

theorem fieldWr_effect {fid : FieldId} {i j : Nat} (h : ¬indexOutOfRange fid i j) (hw : v.toNat < 2 ^ fid.width) :
    ∃ t, exec (.fieldWr fid i j) s = .next t ∧ t.f = s.f.write fid i j v.toNat ∧ t.din = .int v :=
  ⟨_, exec_fieldWr hv h hw, rfl, hv⟩

end Effects

/-- Settles O43: BUF is encodeRecord of F, whose reserved bytes are 0. -/
theorem recEncodeZeroesReservedBytes : Obligations.RecEncodeZeroesReservedBytes := by
  intro s v hv
  obtain ⟨t, hexec, hbuf, _⟩ := recEncode_effect hv
  exact ⟨t, hexec, fun a _ ha => hbuf ▸ encodeRecord_reserved s.f ha⟩

section Trip

/-- What an element comes back as from REC_ENCODE and REC_DECODE: a rank as the rank codec says, any other unchanged (R214). -/
def tripElement (fid : FieldId) (r : Nat) : Nat :=
  if fid = .unitRanks ∨ fid = .benchUnitRanks then r % 8 + 16 * (r / 8 % 2) else r

variable {fid : FieldId} {r : Nat}

theorem tripElement_of_rank (h : fid = .unitRanks ∨ fid = .benchUnitRanks) : tripElement fid r = r % 8 + 16 * (r / 8 % 2) :=
  if_pos h

theorem tripElement_of_not_rank (h : fid ≠ .unitRanks) (h' : fid ≠ .benchUnitRanks) : tripElement fid r = r :=
  if_neg (not_or.mpr ⟨h, h'⟩)

/-- Ranks 0 to 7 survive (R177). -/
theorem tripElement_of_le_seven (h : fid = .unitRanks ∨ fid = .benchUnitRanks → r ≤ 7) : tripElement fid r = r := by
  by_cases hrank : fid = .unitRanks ∨ fid = .benchUnitRanks
  · have := h hrank
    rw [tripElement_of_rank hrank]
    omega
  · exact if_neg hrank

variable (f : Fields)

/-- An encoded item decodes to itself (R156). -/
theorem Memory.item_of_bytes {m : Memory} {a : Nat} {id : BitVec 16} (h : m.bytes a 3 = itemEncode id) : m.item a = id := by
  rw [Memory.item, h, itemDecode_itemEncode]

/-- An encoded rank decodes as the rank codec says (R180). -/
theorem Memory.rank_of_bytes {m : Memory} {a j : Nat} {ranks : Nat → Byte} (h : m.bytes a 4 = rankEncode ranks) (hj : j < 8) :
    (m.rank a j).toNat = (ranks j).toNat % 8 + 16 * ((ranks j).toNat / 8 % 2) := by
  rw [Memory.rank, h, rankDecode_rankEncode ranks hj]

/-- Field by field, an element of the encoded and decoded F is the element that was, but for ranks above 7 (R214). -/
theorem decodeRecord_encodeRecord {i j : Nat} (hin : ¬indexOutOfRange fid i j) :
    (decodeRecord (encodeRecord f)).read fid i j = tripElement fid (f.read fid i j) := by
  obtain ⟨hi, hj⟩ := index_lt_dims hin
  rw [dims_eq] at hi hj
  cases fid with
  | version =>
    obtain rfl : i = 0 := Nat.lt_one_iff.mp hi
    obtain rfl : j = 0 := Nat.lt_one_iff.mp hj
    rw [decodeRecord_version _ hi hj, encodeRecord_version]
    rfl
  | unitItems =>
    rw [decodeRecord_unitItem _ hi hj, Memory.item_of_bytes (encodeRecord_unitItem f hi hj)]
    rfl
  | boardUnitIDs =>
    rw [decodeRecord_boardUnit _ hi hj, encodeRecord_boardUnit f hi hj]
    rfl
  | selectedTalents =>
    rw [decodeRecord_talent _ hi hj, encodeRecord_talent f hi hj]
    rfl
  | unitRanks =>
    rw [decodeRecord_unitRank _ hi hj, Memory.rank_of_bytes (encodeRecord_unitRanks f hj) hi]
    rfl
  | benchUnitItems =>
    obtain rfl : j = 0 := Nat.lt_one_iff.mp hj
    rw [decodeRecord_benchItem _ hi hj, Memory.item_of_bytes (encodeRecord_benchItem f hi)]
    rfl
  | benchedUnitIDs =>
    obtain rfl : j = 0 := Nat.lt_one_iff.mp hj
    rw [decodeRecord_benchUnit _ hi hj, encodeRecord_benchUnit f hi]
    rfl
  | benchUnitRanks =>
    obtain rfl : j = 0 := Nat.lt_one_iff.mp hj
    rw [decodeRecord_benchRank _ hi hj, Memory.rank_of_bytes (encodeRecord_benchRanks f) hi]
    rfl
  | underlordIDs =>
    obtain rfl : j = 0 := Nat.lt_one_iff.mp hj
    rw [decodeRecord_underlordId _ hi hj, encodeRecord_underlordId f hi]
    rfl
  | underlordRanks =>
    obtain rfl : j = 0 := Nat.lt_one_iff.mp hj
    rw [decodeRecord_underlordRank _ hi hj, encodeRecord_underlordRank f hi]
    rfl
  | unequippedItems =>
    rw [decodeRecord_unequippedItem _ hi hj, Memory.item_of_bytes (encodeRecord_unequippedItem f hi hj)]
    rfl

end Trip

/-- Settles O44: BUF is encodeRecord of F, and the F decoded from it is known element by element; if each is the one that was, so is F. -/
theorem recordRoundTrip : Obligations.RecordRoundTrip := by
  intro s v hv
  obtain ⟨t, hencode, htbuf, htdin⟩ := recEncode_effect hv
  obtain ⟨u, hdecode, huf, hubuf, _⟩ := recDecode_effect htdin
  have htrip : ∀ fid i j, ¬indexOutOfRange fid i j → u.f.read fid i j = tripElement fid (s.f.read fid i j) := by
    rw [huf, htbuf]
    exact fun fid i j => decodeRecord_encodeRecord s.f
  refine ⟨t, u, hencode, hdecode, hubuf, fun fid i j hin h h' => ?_, fun fid i j hin h r hr => ?_, fun h => ?_⟩
  · rw [htrip fid i j hin, tripElement_of_not_rank h h']
  · rw [htrip fid i j hin, tripElement_of_rank h, rank_formula, hr]
  · exact Fields.ext_of_read fun fid i j hin => (htrip fid i j hin).trans (tripElement_of_le_seven (h fid i j hin))

/-- Settles O46: the F decoded at the end is the cleared F with the one element written, each element there and back. -/
theorem fieldIsolation : Obligations.FieldIsolation := by
  intro s fid i j v hv hin hw
  obtain ⟨t₁, hclear₁, hf₁, _, hdin₁⟩ := recClear_effect hv
  obtain ⟨t₂, hwrite, hf₂, hdin₂⟩ := fieldWr_effect hdin₁ hin hw
  obtain ⟨t₃, hencode, hbuf₃, hdin₃⟩ := recEncode_effect hdin₂
  obtain ⟨t₄, hclear₄, _, hbuf₄, hdin₄⟩ := recClear_effect hdin₃
  obtain ⟨t₅, hdecode, hf₅, _⟩ := recDecode_effect hdin₄
  have htrip : ∀ fid' i' j', ¬indexOutOfRange fid' i' j' →
      t₅.f.read fid' i' j' = tripElement fid' ((Fields.zero.write fid i j v.toNat).read fid' i' j') := by
    rw [hf₅, hbuf₄, hbuf₃, hf₂, hf₁]
    exact fun fid' i' j' => decodeRecord_encodeRecord _
  refine ⟨t₁, t₂, t₃, t₄, t₅, hclear₁, hwrite, hencode, hclear₄, hdecode, fun fid' i' j' hin' hne => ?_, fun h => ?_⟩
  · rw [htrip fid' i' j' hin', Fields.read_write_other hin hw _ hin' hne, Fields.read_zero]
    exact tripElement_of_le_seven fun _ => Nat.zero_le 7
  · rw [htrip fid i j hin, Fields.read_write_self hin hw]
    exact tripElement_of_le_seven fun hrank => h.resolve_left fun hnot => hrank.elim hnot.1 hnot.2

section Reencoding

variable {m m' : Memory} {a k : Nat}

/-- A slot decoded and encoded again keeps its two id bytes (R156, R203). -/
theorem Memory.slot_reencoded {id : BitVec 16} (hid : id.toNat = (m.item a).toNat) (h : m'.bytes a 3 = itemEncode id) (hk : k < 2) :
    m'.read (a + k) = m.read (a + k) := by
  rw [BitVec.eq_of_toNat_eq hid, Memory.item, Memory.bytes_three m, itemEncode_itemDecode, Memory.bytes_three] at h
  simp only [List.cons.injEq, and_true] at h
  obtain ⟨hlow, hhigh, _⟩ := h
  obtain rfl | rfl : k = 0 ∨ k = 1 := by omega
  · exact hlow
  · exact hhigh

/-- Bit 3 of either nibble of a byte cleared leaves the low three bits of each. -/
theorem and_nibble_mask (x : Byte) : (x &&& 0x77).toNat = x.toNat % 8 + 16 * (x.toNat / 16 % 8) := by
  revert x
  decide +kernel

/-- A packed field decoded and encoded again loses bit 3 of each nibble (R203). -/
theorem Memory.packed_reencoded {ranks : Nat → Byte} (hranks : ∀ j < 8, (ranks j).toNat = (m.rank a j).toNat)
    (h : m'.bytes a 4 = rankEncode ranks) (hk : k < 4) : m'.read (a + k) = m.read (a + k) &&& 0x77 := by
  refine BitVec.eq_of_toNat_eq ?_
  rw [Memory.packed_bytes h hk, hranks _ (by omega), hranks _ (by omega), Memory.rank_toNat m a (by omega),
    Memory.rank_toNat m a (by omega), and_nibble_mask, show 2 * k / 2 = k by omega, show (2 * k + 1) / 2 = k by omega,
    show 2 * k % 2 = 0 by omega, show (2 * k + 1) % 2 = 1 by omega]
  omega

/-- Every byte of a packed rank field loses bits 3 and 7 (R203). -/
theorem read_reencoded_rank (m : Memory) (ha : (292 ≤ a ∧ a < 324) ∨ (356 ≤ a ∧ a < 360)) :
    (encodeRecord (decodeRecord m)).read a = m.read a &&& 0x77 := by
  obtain h | h := ha
  · obtain ⟨b, k, hb, hk, rfl⟩ : ∃ b k, b < 8 ∧ k < 4 ∧ a = packedUnitRankAddr b + k :=
      ⟨(a - 292) / 4, (a - 292) % 4, by omega, by omega, by simp only [packedUnitRankAddr]; omega⟩
    exact Memory.packed_reencoded (fun j hj => decodeRecord_unitRank m hj hb) (encodeRecord_unitRanks _ hb) hk
  · obtain ⟨k, hk, rfl⟩ : ∃ k, k < 4 ∧ a = packedBenchRankAddr + k :=
      ⟨a - 356, by omega, by simp only [packedBenchRankAddr]; omega⟩
    exact Memory.packed_reencoded (fun j hj => decodeRecord_benchRank m hj one_pos) (encodeRecord_benchRanks _) hk

/-- The bytes that are neither reserved nor of a packed rank field, by the field they lie in (R131, R133). -/
theorem plain_byte_field (ha : a < 424) (hres : reservedByte a = false) (hrank : ¬((292 ≤ a ∧ a < 324) ∨ (356 ≤ a ∧ a < 360))) :
    a = 0 ∨ (1 ≤ a ∧ a < 193 ∧ (a - 1) % 3 < 2) ∨ (193 ≤ a ∧ a < 257) ∨ (257 ≤ a ∧ a < 289) ∨
      (324 ≤ a ∧ a < 348 ∧ (a - 324) % 3 < 2) ∨ (348 ≤ a ∧ a < 356) ∨ (360 ≤ a ∧ a < 362) ∨ (362 ≤ a ∧ a < 364) ∨
      (364 ≤ a ∧ a < 412 ∧ (a - 364) % 3 < 2) := by
  have := reservedByte_eq_false_iff.mp hres
  omega

/-- Every such byte is unchanged: its field decodes it whole and encodes it again where it was (R203). -/
theorem read_reencoded_plain (m : Memory) (ha : a < 424) (hres : reservedByte a = false)
    (hrank : ¬((292 ≤ a ∧ a < 324) ∨ (356 ≤ a ∧ a < 360))) : (encodeRecord (decodeRecord m)).read a = m.read a := by
  obtain rfl | h | h | h | h | h | h | h | h := plain_byte_field ha hres hrank
  · exact BitVec.eq_of_toNat_eq ((encodeRecord_version_toNat _).trans (decodeRecord_version m one_pos one_pos))
  · obtain ⟨i, j, k, hi, hj, hk, rfl⟩ : ∃ i j k, i < 8 ∧ j < 8 ∧ k < 2 ∧ a = unitItemAddr i j + k :=
      ⟨(a - 1) / 3 / 8, (a - 1) / 3 % 8, (a - 1) % 3, by omega, by omega, by omega, by simp only [unitItemAddr]; omega⟩
    exact Memory.slot_reencoded (decodeRecord_unitItem m hi hj) (encodeRecord_unitItem _ hi hj) hk
  · obtain ⟨i, j, hi, hj, rfl⟩ : ∃ i j, i < 8 ∧ j < 8 ∧ a = boardUnitAddr i j :=
      ⟨(a - 193) / 8, (a - 193) % 8, by omega, by omega, by simp only [boardUnitAddr]; omega⟩
    exact BitVec.eq_of_toNat_eq ((encodeRecord_boardUnit_toNat _ hi hj).trans (decodeRecord_boardUnit m hi hj))
  · obtain ⟨t, p, ht, hp, rfl⟩ : ∃ t p, t < 16 ∧ p < 2 ∧ a = talentAddr t p :=
      ⟨(a - 257) / 2, (a - 257) % 2, by omega, by omega, by simp only [talentAddr]; omega⟩
    exact BitVec.eq_of_toNat_eq ((encodeRecord_talent_toNat _ ht hp).trans (decodeRecord_talent m ht hp))
  · obtain ⟨i, k, hi, hk, rfl⟩ : ∃ i k, i < 8 ∧ k < 2 ∧ a = benchItemAddr i + k :=
      ⟨(a - 324) / 3, (a - 324) % 3, by omega, by omega, by simp only [benchItemAddr]; omega⟩
    exact Memory.slot_reencoded (decodeRecord_benchItem m hi one_pos) (encodeRecord_benchItem _ hi) hk
  · obtain ⟨i, hi, rfl⟩ : ∃ i, i < 8 ∧ a = benchUnitAddr i := ⟨a - 348, by omega, by simp only [benchUnitAddr]; omega⟩
    exact BitVec.eq_of_toNat_eq ((encodeRecord_benchUnit_toNat _ hi).trans (decodeRecord_benchUnit m hi one_pos))
  · obtain ⟨p, hp, rfl⟩ : ∃ p, p < 2 ∧ a = underlordIdAddr p := ⟨a - 360, by omega, by simp only [underlordIdAddr]; omega⟩
    exact BitVec.eq_of_toNat_eq ((encodeRecord_underlordId_toNat _ hp).trans (decodeRecord_underlordId m hp one_pos))
  · obtain ⟨p, hp, rfl⟩ : ∃ p, p < 2 ∧ a = underlordRankAddr p := ⟨a - 362, by omega, by simp only [underlordRankAddr]; omega⟩
    exact BitVec.eq_of_toNat_eq ((encodeRecord_underlordRank_toNat _ hp).trans (decodeRecord_underlordRank m hp one_pos))
  · obtain ⟨i, j, k, hi, hj, hk, rfl⟩ : ∃ i j k, i < 8 ∧ j < 2 ∧ k < 2 ∧ a = unequippedItemAddr i j + k :=
      ⟨(a - 364) / 3 / 2, (a - 364) / 3 % 2, (a - 364) % 3, by omega, by omega, by omega, by simp only [unequippedItemAddr]; omega⟩
    exact Memory.slot_reencoded (decodeRecord_unequippedItem m hi hj) (encodeRecord_unequippedItem _ hi hj) hk

end Reencoding

/-- Settles O45: BUF is encodeRecord of the F decoded from it, whose bytes are of three kinds: reserved, of a packed rank field, and
plain. -/
theorem recordReencodingIsLossyOnlyThere : Obligations.RecordReencodingIsLossyOnlyThere := by
  intro s v hv
  obtain ⟨t, hdecode, htf, _, htdin⟩ := recDecode_effect hv
  obtain ⟨u, hencode, hubuf, _⟩ := recEncode_effect htdin
  refine ⟨t, u, hdecode, hencode, fun a ha => ?_⟩
  rw [hubuf, htf]
  exact ⟨encodeRecord_reserved _, read_reencoded_rank s.buf, read_reencoded_plain s.buf ha⟩

/-- The cleared F encodes to a record of zero bytes alone (R262). -/
theorem encodeRecord_zero : encodeRecord Fields.zero = [] := by decide +kernel

/-- A buffer that lists no byte reads as 0 in every range (R110). -/
theorem Memory.readBits_nil (off len : Nat) : Memory.readBits [] off len = 0 := by
  induction len with
  | zero => rfl
  | succ len ih => rw [Memory.readBits, ih, Memory.bit_nil]; rfl

/-- Settles O51: the reset F encodes to no listed byte, and so the record read is 0. -/
theorem resetEncodesTheDefaultRecord : Obligations.ResetEncodesTheDefaultRecord := by
  obtain ⟨t, hencode, htbuf, htdin⟩ := recEncode_effect (s := State.reset) (v := 0) rfl
  have hread : t.buf.readBits 0 3392 = 0 := by
    rw [htbuf, show State.reset.f = Fields.zero from rfl, encodeRecord_zero, Memory.readBits_nil]
  exact ⟨t, _, hencode, exec_bbRead_answers htdin le_rfl (congrArg port hread), rfl⟩

end Sys2Proof.Machine
end
